-- ==== Sys2Proof/Word.lean ====
section
/-! DEFINITION. The word types of MRMM-512 (spec/00_scope.md R7, R10; spec/10_state.md R20). All quantities
are unsigned (R10); each type is as wide as the state it holds. -/

namespace Sys2Proof

/-- One byte of the operand buffer (R20: `BUF`, 8 bits). -/
abbrev Byte := BitVec 8

/-- One 32-bit word: a command word, a host-visible control register, or a limb (R7, R29, R81). -/
abbrev Word32 := BitVec 32

/-- The content of one wide register: `CAPBITS` = 1024 bits (R7, R21). -/
abbrev Wide := BitVec 1024

/-- The modulus N of the context: `VALBITS` = 512 bits (R7, R20: `MODN`). -/
abbrev ModWord := BitVec 512

/-- The number of a wide register, `W0` to `W15` (R21; `NREG` = 16, R8). -/
abbrev Reg := Fin 16

end Sys2Proof
end

