-- ==== Sys2Proof/Config.lean ====
section
/-! DEFINITION. What an implementation fixes (spec/00_scope.md R7, R8) and the one value the spec leaves
free (spec/20_memory.md R54). -/

namespace Sys2Proof.Config

/-- `BUFBYTES`, the size of the operand buffer (R8, D5). -/
abbrev bufBytes : Nat := 128

/-- `NTAB`, the entries of the shifted-modulus table, index 0 to 512 (R7). -/
abbrev tableEntries : Nat := 513

/-- The offset of `BUF[0]` in the register map (R51). -/
abbrev bufBase : Nat := 0x80

/-- The first offset after the control registers (R51: `ERRINFO` at 0x10 is the last, 4 bytes). -/
abbrev controlEnd : Nat := 0x14

/-- The first offset after the register map (R50: offsets 0x00 to 0xFF). -/
abbrev mapEnd : Nat := 0x100

/-- FREE VALUE (notes/assumptions/1.md): the data a refused read returns. "a refused read returns no defined
value" (R54), so a model "treats the read data as a free draw": the `n`-th draw of a run. It has no body:
nothing may be proved of its value. -/
opaque refusedReadData : Nat → Nat

end Sys2Proof.Config
end

