-- ==== Sys2Proof/Syntax.lean ====
section
/-! DEFINITION. The 17 commands of the command set, one constructor per row of spec/opcode_table.json, in the
table's order (spec/30_encoding.md R83). Operands are the fields the command's format uses (R82). -/

namespace Sys2Proof

/-- One command of the MRMM-512 command set, revision 1 (R2, R83). -/
inductive Instr where
  /-- NOP, format Z (R170). -/
  | nop
  /-- SRST, soft reset, format Z (R171). -/
  | srst
  /-- LDB, construct from `len` big-endian bytes of `BUF`, format DI (R110). -/
  | ldb (rd : Reg) (len : Byte)
  /-- LDS, construct from the scalar `SCL`, format D (R111). -/
  | lds (rd : Reg)
  /-- MOV, copy a wide register, format DA (R112). -/
  | mov (rd ra : Reg)
  /-- STB, store a wide register to `BUF`, format A (R113). -/
  | stb (ra : Reg)
  /-- CMP, compare two wide registers, format AB (R120). -/
  | cmp (ra rb : Reg)
  /-- ADDS, add the scalar `SCL`, format DA (R125). -/
  | adds (rd ra : Reg)
  /-- SUBS, subtract the scalar `SCL`, format DA (R126). -/
  | subs (rd ra : Reg)
  /-- SUB, in-place subtract another wide register, format DA (R127). -/
  | sub (rd ra : Reg)
  /-- SHL, shift left by `amt` bits, format DAI (R130). -/
  | shl (rd ra : Reg) (amt : Byte)
  /-- SHR, shift right by `amt` bits, format DAI (R131). -/
  | shr (rd ra : Reg) (amt : Byte)
  /-- CTZ, count trailing zero bits, format A (R132). -/
  | ctz (ra : Reg)
  /-- SETMOD, build the modulus context, format A (R140). -/
  | setmod (ra : Reg)
  /-- REDUCE, reduce a wide register in place, format D (R152). -/
  | reduce (rd : Reg)
  /-- MULMOD, modular multiplication, format DAB (R155). -/
  | mulmod (rd ra rb : Reg)
  /-- POWMOD, modular exponentiation of base `ra` to exponent `rb`, format DAB (R160). -/
  | powmod (rd ra rb : Reg)
deriving DecidableEq, Repr

end Sys2Proof
end

