-- ==== Sys2Proof/WellFormed.lean ====
section
/-! DEFINITION. Which instruction terms are commands of the block. Register operands are legal by their type
(spec/30_encoding.md R85: all 16 values are legal in a field the command uses); the one check left is the
length of LDB (R84, R86). -/

namespace Sys2Proof

/-- The well-formed instructions: LDB takes a length of 0 to 128 (R84: "values 0 to 128 are legal and values
129 to 255 make the word illegal"); "every value 0 to 255 decodes" for the shift amounts of SHL and SHR. -/
def Instr.wf : Instr → Bool
  | .nop => true
  | .srst => true
  | .ldb _ len => decide (len.toNat ≤ Config.bufBytes)
  | .lds _ => true
  | .mov _ _ => true
  | .stb _ => true
  | .cmp _ _ => true
  | .adds _ _ => true
  | .subs _ _ => true
  | .sub _ _ => true
  | .shl _ _ _ => true
  | .shr _ _ _ => true
  | .ctz _ => true
  | .setmod _ => true
  | .reduce _ => true
  | .mulmod _ _ _ => true
  | .powmod _ _ _ => true

end Sys2Proof
end

