-- ==== Sys2Proof/Decode.lean ====
section
/-! DEFINITION. Decoding a 32-bit command word, and encoding a command (spec/30_encoding.md R81 to R87). The
decoder is total: every word is a command or is refused by the name of what makes it illegal (R86). -/

namespace Sys2Proof

/-- The six fields of a command word (R81). -/
structure Fields where
  /-- bits 31:24 -/
  op : Nat
  /-- bits 23:20 -/
  rd : Nat
  /-- bits 19:16 -/
  ra : Nat
  /-- bits 15:12 -/
  rb : Nat
  /-- bits 11:8, always 0 in a legal word -/
  z : Nat
  /-- bits 7:0 -/
  imm : Nat
deriving DecidableEq, Repr

/-- The formats of R82, named by the fields they use. -/
inductive Format where
  | Z | D | A | DA | AB | DI | DAI | DAB
deriving DecidableEq, Repr

/-- Why a word is illegal (R86); all four raise the one fault `IllegalCommand`. -/
inductive Illegal where
  /-- `op` is not one of the 17 values of R83. -/
  | unknownOpcode
  /-- The `z` field is not 0. -/
  | zNotZero
  /-- A field the format does not use is not 0. -/
  | unusedFieldNotZero
  /-- LDB with `imm > 128`. -/
  | ldbTooLong
deriving DecidableEq, Repr

/-- The fields of a word (R81; `v[hi:lo]` of R10). -/
def fieldsOf (w : Word32) : Fields where
  op := w.toNat / 2 ^ 24
  rd := w.toNat / 2 ^ 20 % 16
  ra := w.toNat / 2 ^ 16 % 16
  rb := w.toNat / 2 ^ 12 % 16
  z := w.toNat / 2 ^ 8 % 16
  imm := w.toNat % 256

/-- R81: `cw = op * 2^24 + rd * 2^20 + ra * 2^16 + rb * 2^12 + z * 2^8 + imm`. -/
def wordOf (f : Fields) : Word32 :=
  BitVec.ofNat 32
    (f.op * 2 ^ 24 + f.rd * 2 ^ 20 + f.ra * 2 ^ 16 + f.rb * 2 ^ 12 + f.z * 2 ^ 8 + f.imm)

/-- R82, R86: every field the format does not use is 0. -/
def unusedZero : Format → Fields → Bool
  | .Z, f => f.rd == 0 && f.ra == 0 && f.rb == 0 && f.imm == 0
  | .D, f => f.ra == 0 && f.rb == 0 && f.imm == 0
  | .A, f => f.rd == 0 && f.rb == 0 && f.imm == 0
  | .DA, f => f.rb == 0 && f.imm == 0
  | .AB, f => f.rd == 0 && f.imm == 0
  | .DI, f => f.ra == 0 && f.rb == 0
  | .DAI, f => f.rb == 0
  | .DAB, f => f.imm == 0

/-- A register field is the register's number (R85). -/
def regField (n : Nat) : Reg := Fin.ofNat 16 n

/-- The immediate field, unsigned, as it stands (R84). -/
def immField (n : Nat) : Byte := BitVec.ofNat 8 n

/-- The command an opcode stands for, with its format, its operands taken from the fields (R82, R83). -/
def commandOf (f : Fields) : Option (Format × Instr) :=
  match f.op with
  | 0x00 => some (.Z, .nop)
  | 0x01 => some (.Z, .srst)
  | 0x10 => some (.DI, .ldb (regField f.rd) (immField f.imm))
  | 0x11 => some (.D, .lds (regField f.rd))
  | 0x12 => some (.DA, .mov (regField f.rd) (regField f.ra))
  | 0x13 => some (.A, .stb (regField f.ra))
  | 0x20 => some (.AB, .cmp (regField f.ra) (regField f.rb))
  | 0x21 => some (.DA, .adds (regField f.rd) (regField f.ra))
  | 0x22 => some (.DA, .subs (regField f.rd) (regField f.ra))
  | 0x23 => some (.DA, .sub (regField f.rd) (regField f.ra))
  | 0x30 => some (.DAI, .shl (regField f.rd) (regField f.ra) (immField f.imm))
  | 0x31 => some (.DAI, .shr (regField f.rd) (regField f.ra) (immField f.imm))
  | 0x32 => some (.A, .ctz (regField f.ra))
  | 0x40 => some (.A, .setmod (regField f.ra))
  | 0x41 => some (.D, .reduce (regField f.rd))
  | 0x42 => some (.DAB, .mulmod (regField f.rd) (regField f.ra) (regField f.rb))
  | 0x43 => some (.DAB, .powmod (regField f.rd) (regField f.ra) (regField f.rb))
  | _ => none

/-- R80 step 2, R86: the command a word is, or why it is illegal. -/
def decode (w : Word32) : Except Illegal Instr :=
  match commandOf (fieldsOf w) with
  | none => .error .unknownOpcode
  | some (fmt, i) =>
    if (fieldsOf w).z ≠ 0 then .error .zNotZero
    else if unusedZero fmt (fieldsOf w) = false then .error .unusedFieldNotZero
    else if i.wf = false then .error .ldbTooLong
    else .ok i

/-- The fields of a command's word: the fields its format does not use, and `z`, are 0 (R82, R83, R86). -/
def instrFields : Instr → Fields
  | .nop => ⟨0x00, 0, 0, 0, 0, 0⟩
  | .srst => ⟨0x01, 0, 0, 0, 0, 0⟩
  | .ldb rd len => ⟨0x10, rd.val, 0, 0, 0, len.toNat⟩
  | .lds rd => ⟨0x11, rd.val, 0, 0, 0, 0⟩
  | .mov rd ra => ⟨0x12, rd.val, ra.val, 0, 0, 0⟩
  | .stb ra => ⟨0x13, 0, ra.val, 0, 0, 0⟩
  | .cmp ra rb => ⟨0x20, 0, ra.val, rb.val, 0, 0⟩
  | .adds rd ra => ⟨0x21, rd.val, ra.val, 0, 0, 0⟩
  | .subs rd ra => ⟨0x22, rd.val, ra.val, 0, 0, 0⟩
  | .sub rd ra => ⟨0x23, rd.val, ra.val, 0, 0, 0⟩
  | .shl rd ra amt => ⟨0x30, rd.val, ra.val, 0, 0, amt.toNat⟩
  | .shr rd ra amt => ⟨0x31, rd.val, ra.val, 0, 0, amt.toNat⟩
  | .ctz ra => ⟨0x32, 0, ra.val, 0, 0, 0⟩
  | .setmod ra => ⟨0x40, 0, ra.val, 0, 0, 0⟩
  | .reduce rd => ⟨0x41, rd.val, 0, 0, 0, 0⟩
  | .mulmod rd ra rb => ⟨0x42, rd.val, ra.val, rb.val, 0, 0⟩
  | .powmod rd ra rb => ⟨0x43, rd.val, ra.val, rb.val, 0, 0⟩

/-- The word of a command (R81, R83). A legal word has exactly one command and a command exactly one word, so
`encode i` is the `cw` that a rule of the spec names when the command `i` runs. -/
def encode (i : Instr) : Word32 := wordOf (instrFields i)

/-- The one word that is executed while `ERR = 1` (R80 step 1, R171). -/
abbrev srstWord : Word32 := 0x01000000#32

/-- One row of R83: a word `cw` is the command when `cw AND mask = pattern` (for LDB, R84's length check is
one more). -/
structure OpcodeRow where
  mnemonic : String
  mask : Word32
  pattern : Word32
deriving DecidableEq, Repr

/-- The mask and match columns of R83. The decoder above reads fields; that it agrees with this table is a
statement about it. -/
def opcodeRow : Instr → OpcodeRow
  | .nop => ⟨"NOP", 0xFFFFFFFF#32, 0x00000000#32⟩
  | .srst => ⟨"SRST", 0xFFFFFFFF#32, 0x01000000#32⟩
  | .ldb _ _ => ⟨"LDB", 0xFF0FFF00#32, 0x10000000#32⟩
  | .lds _ => ⟨"LDS", 0xFF0FFFFF#32, 0x11000000#32⟩
  | .mov _ _ => ⟨"MOV", 0xFF00FFFF#32, 0x12000000#32⟩
  | .stb _ => ⟨"STB", 0xFFF0FFFF#32, 0x13000000#32⟩
  | .cmp _ _ => ⟨"CMP", 0xFFF00FFF#32, 0x20000000#32⟩
  | .adds _ _ => ⟨"ADDS", 0xFF00FFFF#32, 0x21000000#32⟩
  | .subs _ _ => ⟨"SUBS", 0xFF00FFFF#32, 0x22000000#32⟩
  | .sub _ _ => ⟨"SUB", 0xFF00FFFF#32, 0x23000000#32⟩
  | .shl _ _ _ => ⟨"SHL", 0xFF00FF00#32, 0x30000000#32⟩
  | .shr _ _ _ => ⟨"SHR", 0xFF00FF00#32, 0x31000000#32⟩
  | .ctz _ => ⟨"CTZ", 0xFFF0FFFF#32, 0x32000000#32⟩
  | .setmod _ => ⟨"SETMOD", 0xFFF0FFFF#32, 0x40000000#32⟩
  | .reduce _ => ⟨"REDUCE", 0xFF0FFFFF#32, 0x41000000#32⟩
  | .mulmod _ _ _ => ⟨"MULMOD", 0xFF000FFF#32, 0x42000000#32⟩
  | .powmod _ _ _ => ⟨"POWMOD", 0xFF000FFF#32, 0x43000000#32⟩

/-- The instruction the decoder reads from a table row's word. A command is one 32-bit number and no byte order
is involved (R52, R81, R87); the bits above `nbits` are 0. -/
def decodeTableWord (nbits w : Nat) : Option Instr :=
  match decode (BitVec.ofNat 32 (w % 2 ^ min nbits 32)) with
  | .ok i => some i
  | .error _ => none

end Sys2Proof
end

