-- ==== Sys2Proof/Machine/State.lean ====
section
/-! DEFINITION. The state of the machine as plain data: the block's record of spec/10_state.md R20, and the
host's side (spec/00_scope.md R9, R14). The state after reset is spec/70_reset_and_hazards.md R221. -/

namespace Sys2Proof.Machine

/-- The operand buffer as (index, byte) pairs in one canonical form (`Memory.wf`, Machine/Ops.lean): indexes
strictly rising and below 128, no listed byte equal to what an unlisted index reads as. -/
abbrev Memory := List Host.Cell

/-- The fault causes of spec/60_exceptions.md R191, codes 1 to 9. Taking one is a next state (R196), not a stop
of the model. -/
inductive Cause where
  | inputTooWide
  | addOverflow
  | subUnderflow
  | shiftRange
  | operandNotReduced
  | ctzZero
  | modulusRange
  | noModulus
  | illegalCommand
deriving DecidableEq, Repr

/-- The complete state of the block (R20), field by field. -/
structure Block where
  /-- `W[0..15]`, the wide registers (R21). -/
  w : Vector Wide 16
  /-- `BUF[0..127]`, the operand buffer (R33). -/
  buf : Memory
  /-- `SCL`, the scalar operand (R29). -/
  scl : Word32
  /-- `TZC`, the trailing-zero count (R29). -/
  tzc : Word32
  /-- `LT`, last CMP: first operand less than second (R28). -/
  lt : Bool
  /-- `EQ`, last CMP: operands equal (R28). -/
  eq : Bool
  /-- `MV`, modulus context valid (R30). -/
  mv : Bool
  /-- `MODN`, the modulus N of the context (R30). -/
  modn : ModWord
  /-- `MT[0..512]`, the shifted-modulus table (R30, R31). -/
  mt : List Wide
  /-- `ERR`, sticky fault (60_exceptions.md R196). -/
  err : Bool
  /-- `ERRCODE`, fault cause code (60_exceptions.md R191). -/
  errCode : BitVec 4
  /-- `ERRINFO`, the command word that faulted (R29). -/
  errInfo : Word32
deriving DecidableEq, Repr

/-- What the host can do (00_scope.md R9, 20_memory.md R50, 30_encoding.md R95): `MemRead(offset, size)`,
`MemWrite(offset, size, value)`, `size` in bytes, and hardware reset. -/
inductive HostAction where
  | reset
  | read (offset size : Nat)
  | write (offset size : Nat) (value : Word32)
deriving DecidableEq, Repr

/-- The machine: the block and the host's side (notes/assumptions/3.md). -/
structure State where
  /-- The block (R20). -/
  block : Block
  /-- The host actions still to be performed, oldest first (00_scope.md R14: a program is a finite list of host
  actions). The model's own field. -/
  pending : List HostAction
  /-- The data the host's last read returned, absent before the first read. The model's own field. -/
  readData : Option Nat
  /-- How many free values have been drawn (notes/assumptions/1.md). The model's own field. -/
  freeDraws : Nat
deriving DecidableEq, Repr

/-- Why the model stops at a host action. No command of the opcode table raises one. -/
inductive Fault where
  /-- Raised by `hostRead` and `hostWrite` when the host addresses an offset the register map does not have
  (20_memory.md R51, R54: "A model gives such an access no step (the host is stuck at it)"). It is no fault of
  the block: `ERR` is as it was. Safe: the model stops where the platform might go on. -/
  | unmappedAccess (offset size : Nat)
deriving DecidableEq, Repr

/-- Why an instruction has no meaning. -/
inductive Refusal where
  /-- Raised by an arm of `exec` whose instruction has no meaning yet; no arm does. Safe. -/
  | notModelled (mnemonic : String)
deriving DecidableEq, Repr

/-- The block after reset (R221). `MT` is unspecified and unobservable there; the model holds zeros
(notes/assumptions/2.md). -/
def Block.reset : Block where
  w := Vector.replicate 16 0#1024
  buf := []
  scl := 0#32
  tzc := 0#32
  lt := false
  eq := false
  mv := false
  modn := 0#512
  mt := List.replicate Config.tableEntries 0#1024
  err := false
  errCode := 0#4
  errInfo := 0#32

/-- The machine right after reset: the block of R221, and a host that has issued nothing yet. -/
def State.reset : State where
  block := Block.reset
  pending := []
  readData := none
  freeDraws := 0

end Sys2Proof.Machine
end

