-- ==== Sys2Proof/Machine/Ops.lean ====
section
/-! DEFINITION. The named operations over the operand buffer and the wide registers, and the shared operations
for taking a fault (spec/60_exceptions.md R196) and for leaving one, which is reset (R198, R220). -/

namespace Sys2Proof.Machine

/-- What a byte of `BUF` that is not listed reads as: the reset content (70_reset_and_hazards.md R221). -/
def Memory.unlisted : Byte := 0#8

/-- `BUF[k]`, read (00_scope.md R11). -/
def Memory.read : Memory → Nat → Byte
  | [], _ => Memory.unlisted
  | (a, b) :: m, k => if a = k then b else Memory.read m k

/-- `BUF[k] <- b` (R11), keeping the canonical form. -/
def Memory.write : Memory → Nat → Byte → Memory
  | [], k, b => if b = Memory.unlisted then [] else [(k, b)]
  | (a, c) :: m, k, b =>
    if k < a then
      if b = Memory.unlisted then (a, c) :: m else (k, b) :: (a, c) :: m
    else if k = a then
      if b = Memory.unlisted then m else (k, b) :: m
    else (a, c) :: Memory.write m k b

/-- The canonical form from index `lo` on: indexes at least `lo`, strictly rising, below 128, and no listed byte
equal to what an unlisted one reads as. -/
def Memory.wfFrom (lo : Nat) : Memory → Bool
  | [] => true
  | (a, b) :: m =>
    decide (lo ≤ a) && decide (a < Config.bufBytes) && (b != Memory.unlisted) && Memory.wfFrom (a + 1) m

/-- The canonical form of the operand buffer. -/
def Memory.wf (m : Memory) : Bool := Memory.wfFrom 0 m

/-- `W[i]`, read (R11). -/
def State.reg (s : State) (r : Reg) : Wide := s.block.w.get r

/-- `W[i] <- v` (R11). No wide register is hardwired (10_state.md R22). -/
def State.setReg (s : State) (r : Reg) (v : Wide) : State :=
  { s with block := { s.block with w := s.block.w.set r.val v r.isLt } }

/-- The code of a fault cause, the value `ERRCODE` takes (60_exceptions.md R191). -/
def Cause.code : Cause → BitVec 4
  | .inputTooWide => 1#4
  | .addOverflow => 2#4
  | .subUnderflow => 3#4
  | .shiftRange => 4#4
  | .operandNotReduced => 5#4
  | .ctzZero => 6#4
  | .modulusRange => 7#4
  | .noModulus => 8#4
  | .illegalCommand => 9#4

/-- Fault entry, `raise <Fault>(cw)` (R196): `ERR`, `ERRCODE`, `ERRINFO` and nothing else. There is no handler, no
vector and no saved program counter. -/
def raise (c : Cause) (cw : Word32) (s : State) : State :=
  { s with block := { s.block with err := true, errCode := c.code, errInfo := cw } }

/-- Hardware reset and SRST, which "have exactly the same effect" (70_reset_and_hazards.md R220, R221) and are the
only exits from the fault state (R198). The host keeps its program and what it has read. -/
def resetBlock (s : State) : State := { s with block := Block.reset }

/-- How a command ends (30_encoding.md R80): it "either completes all its writes or, on a fault, makes none and
performs fault entry only". -/
def complete (cw : Word32) (s : State) : Except Cause State → Host.Outcome State Fault Refusal
  | .ok t => .next t
  | .error c => .next (raise c cw s)

end Sys2Proof.Machine
end

