-- ==== Sys2Proof/Machine/Flags.lean ====
section
/-! DEFINITION. The flags and the status word (spec/10_state.md R28, R29; spec/41_compare_addsub.md R120). CMP is the
only command that computes a flag. -/

namespace Sys2Proof.Machine

/-- `LT`: 1 exactly when the first operand is numerically less than the second, unsigned, over all 1024 bits
(R120). -/
def compareLt (a b : Wide) : Bool := decide (a.toNat < b.toNat)

/-- `EQ`: 1 exactly when the operands are equal (R120). -/
def compareEq (a b : Wide) : Bool := decide (a = b)

/-- `STATUS` as the host reads it (R29): bit 0 `ERR`, bit 1 `MV`, bit 2 `LT`, bit 3 `EQ`, bits 7:4 `ERRCODE`, the
rest 0. -/
def statusWord (b : Block) : Word32 :=
  0#24 ++ b.errCode ++ BitVec.ofBool b.eq ++ BitVec.ofBool b.lt ++ BitVec.ofBool b.mv ++ BitVec.ofBool b.err

end Sys2Proof.Machine
end

