-- ==== Sys2Proof/Machine/Operands.lean ====
section
/-! DEFINITION. The operand forms of the commands and of the host's accesses to `BUF`: byte images, the scalar,
limbs (spec/00_scope.md R11, spec/20_memory.md R53, R57, spec/40_construct_move.md). -/

namespace Sys2Proof.Machine

/-- `lo512(v)`, the low half of a wide value (R11). -/
def lo512 (v : Wide) : BitVec 512 := v.extractLsb' 0 512

/-- `hi512(v)`, the headroom (R11). -/
def hi512 (v : Wide) : BitVec 512 := v.extractLsb' 512 512

/-- `limb(v, j)`, most-significant limb first: `v[1023-32*j : 992-32*j]` (R11). -/
def limb (v : Wide) (j : Nat) : Word32 := v.extractLsb' (992 - 32 * j) 32

/-- `zext_1024(SCL)`: the scalar, "occupying only the lowest limb" (40_construct_move.md R111). -/
def scalarWide (scl : Word32) : Wide := scl.setWidth 1024

/-- The big-endian value of `BUF[0 .. len-1]`, by R110's loop `v <- v * 256 + BUF[k]`. -/
def loadBytes (m : Memory) : Nat → Nat
  | 0 => 0
  | n + 1 => loadBytes m n * 256 + (Memory.read m n).toNat

/-- Byte `k` of the big-endian image of a wide value: `v[1023 - 8*k : 1016 - 8*k]` (R113). -/
def imageByte (v : Wide) (k : Nat) : Byte := v.extractLsb' (1016 - 8 * k) 8

/-- `BUF[k] <- v[1023 - 8*k : 1016 - 8*k]` for `k` from 0 to `n - 1` (R113). -/
def storeImage (v : Wide) : Nat → Memory → Memory
  | 0, m => m
  | n + 1, m => Memory.write (storeImage v n m) n (imageByte v n)

/-- `BUF[k] ++ BUF[k+1] ++ BUF[k+2] ++ BUF[k+3]`: the 4-byte view is big-endian (20_memory.md R53). -/
def bufWord (m : Memory) (k : Nat) : Word32 :=
  Memory.read m k ++ Memory.read m (k + 1) ++ Memory.read m (k + 2) ++ Memory.read m (k + 3)

/-- `BUF[k] <- v[31:24]`, `BUF[k+1] <- v[23:16]`, `BUF[k+2] <- v[15:8]`, `BUF[k+3] <- v[7:0]` (R53). -/
def storeBufWord (m : Memory) (k : Nat) (v : Word32) : Memory :=
  Memory.write
    (Memory.write
      (Memory.write (Memory.write m k (v.extractLsb' 24 8)) (k + 1) (v.extractLsb' 16 8))
      (k + 2) (v.extractLsb' 8 8))
    (k + 3) (v.extractLsb' 0 8)

end Sys2Proof.Machine
end

