-- ==== Sys2Proof/Machine/AddSub.lean ====
section
/-! DEFINITION. Comparison, add and subtract: CMP, ADDS, SUBS, SUB (spec/41_compare_addsub.md R120 to R127). -/

namespace Sys2Proof.Machine

/-- The exact sum of a wide value and a scalar, or a carry out of the 1024-bit capacity (R125, D14). -/
def addScalar (a : Wide) (c : Word32) : Except Cause Wide :=
  if 2 ^ 1024 ≤ a.toNat + c.toNat then .error .addOverflow
  else .ok (BitVec.ofNat 1024 (a.toNat + c.toNat))

/-- The exact difference of two unsigned values, or `SubUnderflow` (R126, R127). -/
def subExact (a b : Wide) : Except Cause Wide :=
  if a.toNat < b.toNat then .error .subUnderflow
  else .ok (BitVec.ofNat 1024 (a.toNat - b.toNat))

/-- CMP (R120): writes `LT` and `EQ`; no wide register changes. -/
def execCmp (ra rb : Reg) (s : State) : Host.Outcome State Fault Refusal :=
  complete (encode (.cmp ra rb)) s
    (.ok { s with
      block := { s.block with lt := compareLt (s.reg ra) (s.reg rb), eq := compareEq (s.reg ra) (s.reg rb) } })

/-- ADDS (R125): `W[rd] <- W[ra] + SCL`, or `AddOverflow`. -/
def execAdds (rd ra : Reg) (s : State) : Host.Outcome State Fault Refusal :=
  complete (encode (.adds rd ra)) s ((addScalar (s.reg ra) s.block.scl).map (s.setReg rd))

/-- SUBS (R126): `W[rd] <- W[ra] - SCL`, or `SubUnderflow`. -/
def execSubs (rd ra : Reg) (s : State) : Host.Outcome State Fault Refusal :=
  complete (encode (.subs rd ra)) s ((subExact (s.reg ra) (scalarWide s.block.scl)).map (s.setReg rd))

/-- SUB (R127): `W[rd] <- W[rd] - W[ra]`, or `SubUnderflow`. -/
def execSub (rd ra : Reg) (s : State) : Host.Outcome State Fault Refusal :=
  complete (encode (.sub rd ra)) s ((subExact (s.reg rd) (s.reg ra)).map (s.setReg rd))

end Sys2Proof.Machine
end

