-- ==== Sys2Proof/Machine/Construct.lean ====
section
/-! DEFINITION. Construction and movement: LDB, LDS, MOV, STB (spec/40_construct_move.md R110 to R113). -/

namespace Sys2Proof.Machine

/-- LDB (R110). A length above 128 makes the word illegal (30_encoding.md R84, R86), tested before any operand
is read (60_exceptions.md R194); `InputTooWide` is tested on the value, not on the length. -/
def execLdb (rd : Reg) (len : Byte) (s : State) : Host.Outcome State Fault Refusal :=
  complete (encode (.ldb rd len)) s <|
    if Config.bufBytes < len.toNat then .error .illegalCommand
    else if 2 ^ 512 ≤ loadBytes s.block.buf len.toNat then .error .inputTooWide
    else .ok (s.setReg rd (BitVec.ofNat 1024 (loadBytes s.block.buf len.toNat)))

/-- LDS (R111): `W[rd] <- zext_1024(SCL)`. -/
def execLds (rd : Reg) (s : State) : Host.Outcome State Fault Refusal :=
  complete (encode (.lds rd)) s (.ok (s.setReg rd (scalarWide s.block.scl)))

/-- MOV (R112): all 1024 bits. -/
def execMov (rd ra : Reg) (s : State) : Host.Outcome State Fault Refusal :=
  complete (encode (.mov rd ra)) s (.ok (s.setReg rd (s.reg ra)))

/-- STB (R113): all 128 bytes of `BUF` are always written. -/
def execStb (ra : Reg) (s : State) : Host.Outcome State Fault Refusal :=
  complete (encode (.stb ra)) s
    (.ok { s with block := { s.block with buf := storeImage (s.reg ra) Config.bufBytes s.block.buf } })

end Sys2Proof.Machine
end

