-- ==== Sys2Proof/Machine/Context.lean ====
section
/-! DEFINITION. The modulus context: SETMOD and its table (spec/43_modulus_context.md R140, R141; spec/10_state.md
R30, R31). -/

namespace Sys2Proof.Machine

/-- `MT[i] = n * 2^(512 - i)` (R30, R140). -/
def tableEntry (n i : Nat) : Wide := BitVec.ofNat 1024 (n * 2 ^ (512 - i))

/-- `MT[0..512]` for the modulus `n`: the closed form of R140, which "a model computes" (R141). -/
def shiftedTable (n : Nat) : List Wide := (List.range Config.tableEntries).map (tableEntry n)

/-- The order of construction of R141: `r <- n`; for `i` from 512 down to 0: `MT[i] <- r`, then the shifter doubles
`r`. `k` is how many entries are still to be written, `filled` the entries of the higher indexes. -/
def fillTable : Nat → Nat → List Wide → List Wide
  | 0, _, filled => filled
  | k + 1, r, filled => fillTable k (r * 2 % 2 ^ 1024) (BitVec.ofNat 1024 r :: filled)

/-- SETMOD (R140): the context becomes a copy of `W[ra]`, or `ModulusRange` and the old context stays. -/
def execSetmod (ra : Reg) (s : State) : Host.Outcome State Fault Refusal :=
  complete (encode (.setmod ra)) s <|
    if (s.reg ra).toNat = 0 ∨ 2 ^ 512 ≤ (s.reg ra).toNat then .error .modulusRange
    else .ok { s with
      block := { s.block with
        modn := BitVec.ofNat 512 (s.reg ra).toNat
        mt := shiftedTable (s.reg ra).toNat
        mv := true } }

end Sys2Proof.Machine
end

