-- ==== Sys2Proof/Machine/Modular.lean ====
section
/-! DEFINITION. The modular engine: REDUCE, MULMOD, POWMOD (spec/44_modular_engine.md R150 to R160). -/

namespace Sys2Proof.Machine

/-- The reduction loop (R150): one compare-and-subtract per table entry, in the table's order. -/
def reduceBy : List Wide → Nat → Nat
  | [], v => v
  | m :: mt, v => bif Nat.ble m.toNat v then reduceBy mt (v - m.toNat) else reduceBy mt v

/-- `mulmod(a, b)` (R155, R156): both operands tested against N, then the exact product (R153) reduced. -/
def mulmodBy (b : Block) (x y : Nat) : Except Cause Nat :=
  if b.modn.toNat ≤ x then .error .operandNotReduced
  else if b.modn.toNat ≤ y then .error .operandNotReduced
  else .ok (reduceBy b.mt (x * y))

/-- The loop of R160 on the working copies `PB`, `PE`, `PR` (10_state.md R34). `fuel` bounds the iterations; 1024
suffice for a 1024-bit exponent (70_reset_and_hazards.md R231). -/
def powmodLoop (b : Block) : Nat → Nat → Nat → Nat → Except Cause Nat
  | 0, _, _, pr => .ok pr
  | fuel + 1, pb, pe, pr =>
    if pe = 0 then .ok pr
    else
      match (if pe % 2 = 1 then mulmodBy b pr pb else .ok pr) with
      | .error c => .error c
      | .ok pr' =>
        match mulmodBy b pb pb with
        | .error c => .error c
        | .ok pb' => powmodLoop b fuel pb' (pe / 2) pr'

/-- REDUCE (R152): the 513 steps run literally on any value; the one fault is `NoModulus`. -/
def execReduce (rd : Reg) (s : State) : Host.Outcome State Fault Refusal :=
  complete (encode (.reduce rd)) s <|
    if s.block.mv = false then .error .noModulus
    else .ok (s.setReg rd (BitVec.ofNat 1024 (reduceBy s.block.mt (s.reg rd).toNat)))

/-- MULMOD (R155): `NoModulus`, then `OperandNotReduced` for `ra`, then for `rb`. -/
def execMulmod (rd ra rb : Reg) (s : State) : Host.Outcome State Fault Refusal :=
  complete (encode (.mulmod rd ra rb)) s <|
    if s.block.mv = false then .error .noModulus
    else (mulmodBy s.block (s.reg ra).toNat (s.reg rb).toNat).map fun v => s.setReg rd (BitVec.ofNat 1024 v)

/-- POWMOD (R160): `NoModulus` is tested even when the exponent is 0; a fault inside the loop writes nothing. -/
def execPowmod (rd ra rb : Reg) (s : State) : Host.Outcome State Fault Refusal :=
  complete (encode (.powmod rd ra rb)) s <|
    if s.block.mv = false then .error .noModulus
    else (powmodLoop s.block 1024 (s.reg ra).toNat (s.reg rb).toNat 1).map fun v =>
      s.setReg rd (BitVec.ofNat 1024 v)

end Sys2Proof.Machine
end

