-- ==== Sys2Proof/Machine/Shift.lean ====
section
/-! DEFINITION. Shift and scan: SHL, SHR, CTZ (spec/42_shift_scan.md R130 to R132). -/

namespace Sys2Proof.Machine

/-- `LIMBBITS`, the bound of a shift amount: `0 <= s < 32` (00_scope.md R7). -/
def shiftBound : Nat := 32

/-- `tz(v)` for `v > 0`: the index of the lowest set bit (R132), over `fuel` bits. -/
def trailingZeros : Nat → Nat → Nat
  | 0, _ => 0
  | fuel + 1, v => if v % 2 = 1 then 0 else trailingZeros fuel (v / 2) + 1

/-- SHL (R130): `W[rd] <- (W[ra] * 2^s) mod 2^1024`, or `ShiftRange`. Losing high bits is no fault. -/
def execShl (rd ra : Reg) (amt : Byte) (s : State) : Host.Outcome State Fault Refusal :=
  complete (encode (.shl rd ra amt)) s <|
    if shiftBound ≤ amt.toNat then .error .shiftRange
    else .ok (s.setReg rd (BitVec.ofNat 1024 ((s.reg ra).toNat * 2 ^ amt.toNat)))

/-- SHR (R131): `W[rd] <- W[ra] div 2^s`, or `ShiftRange`. -/
def execShr (rd ra : Reg) (amt : Byte) (s : State) : Host.Outcome State Fault Refusal :=
  complete (encode (.shr rd ra amt)) s <|
    if shiftBound ≤ amt.toNat then .error .shiftRange
    else .ok (s.setReg rd (BitVec.ofNat 1024 ((s.reg ra).toNat / 2 ^ amt.toNat)))

/-- CTZ (R132): `TZC <- tz(W[ra])`, or `CtzZero`; `TZC` is the only state written. -/
def execCtz (ra : Reg) (s : State) : Host.Outcome State Fault Refusal :=
  complete (encode (.ctz ra)) s <|
    if (s.reg ra).toNat = 0 then .error .ctzZero
    else .ok { s with
      block := { s.block with tzc := BitVec.ofNat 32 (trailingZeros 1024 (s.reg ra).toNat) } }

end Sys2Proof.Machine
end

