-- ==== Sys2Proof/Machine/System.lean ====
section
/-! DEFINITION. System commands: NOP and SRST (spec/45_system.md R170, R171). -/

namespace Sys2Proof.Machine

/-- NOP (R170): no state changes. -/
def execNop (s : State) : Host.Outcome State Fault Refusal :=
  complete (encode .nop) s (.ok s)

/-- SRST (R171): the block takes the reset state, exactly as a hardware reset does. -/
def execSrst (s : State) : Host.Outcome State Fault Refusal :=
  complete (encode .srst) s (.ok (resetBlock s))

end Sys2Proof.Machine
end

