-- ==== Sys2Proof/Machine/Dispatch.lean ====
section
/-! DEFINITION. The meaning of each command, one arm per constructor of `Instr` (spec/30_encoding.md R80 step 3,
R83). -/

namespace Sys2Proof.Machine

/-- Run the command's rule (R80 step 3). Steps 1 and 2 of R80, the fault state and decoding, come before it
(`runCommand`, Machine/Bus.lean). -/
def exec (i : Instr) (s : State) : Host.Outcome State Fault Refusal :=
  match i with
  | .nop => Sys2Proof.Machine.execNop s
  | .srst => Sys2Proof.Machine.execSrst s
  | .ldb rd len => Sys2Proof.Machine.execLdb rd len s
  | .lds rd => Sys2Proof.Machine.execLds rd s
  | .mov rd ra => Sys2Proof.Machine.execMov rd ra s
  | .stb ra => Sys2Proof.Machine.execStb ra s
  | .cmp ra rb => Sys2Proof.Machine.execCmp ra rb s
  | .adds rd ra => Sys2Proof.Machine.execAdds rd ra s
  | .subs rd ra => Sys2Proof.Machine.execSubs rd ra s
  | .sub rd ra => Sys2Proof.Machine.execSub rd ra s
  | .shl rd ra amt => Sys2Proof.Machine.execShl rd ra amt s
  | .shr rd ra amt => Sys2Proof.Machine.execShr rd ra amt s
  | .ctz ra => Sys2Proof.Machine.execCtz ra s
  | .setmod ra => Sys2Proof.Machine.execSetmod ra s
  | .reduce rd => Sys2Proof.Machine.execReduce rd s
  | .mulmod rd ra rb => Sys2Proof.Machine.execMulmod rd ra rb s
  | .powmod rd ra rb => Sys2Proof.Machine.execPowmod rd ra rb s

end Sys2Proof.Machine
end

