-- ==== Sys2Proof/Machine/Bus.lean ====
section
/-! DEFINITION. The host interface: the register map, the host's accesses and resets, and what a write to `CMD` does
(spec/20_memory.md R50 to R56, spec/30_encoding.md R80). -/

namespace Sys2Proof.Machine

/-- What an access of `size` bytes at `offset` meets in the register map (R51 to R54). -/
inductive Access where
  /-- An aligned 4-byte access to the control register at this offset (R52). -/
  | control (offset : Nat)
  /-- A 1-byte access to `BUF[k]` (R53). -/
  | bufByte (k : Nat)
  /-- An aligned 4-byte access to `BUF[k .. k+3]` (R53). -/
  | bufWord (k : Nat)
  /-- Mapped locations, but a size or an alignment they do not accept (R54). -/
  | refused
  /-- Some byte of the access is at an offset the map does not have (R51, R54). -/
  | unmapped
deriving DecidableEq, Repr

/-- The register map (R51) and the accesses its locations accept (R52, R53); the rest is R54. -/
def classify (offset size : Nat) : Access :=
  if size = 4 ∧ offset % 4 = 0 ∧ offset < Config.controlEnd then .control offset
  else if size = 1 ∧ Config.bufBase ≤ offset ∧ offset < Config.mapEnd then .bufByte (offset - Config.bufBase)
  else if size = 4 ∧ offset % 4 = 0 ∧ Config.bufBase ≤ offset ∧ offset < Config.mapEnd then
    .bufWord (offset - Config.bufBase)
  else if offset + size ≤ Config.controlEnd ∨ (Config.bufBase ≤ offset ∧ offset + size ≤ Config.mapEnd) then
    .refused
  else .unmapped

/-- The value a control register reads as (10_state.md R29, R51): `CMD` holds no state and reads 0. -/
def controlRead (b : Block) (offset : Nat) : Word32 :=
  if offset = 0x04 then statusWord b
  else if offset = 0x08 then b.scl
  else if offset = 0x0C then b.tzc
  else if offset = 0x10 then b.errInfo
  else 0#32

/-- `MemRead(offset, size)`: no side effect on the block (R55). The data goes to the host; a refused read returns
a free draw (R54, notes/assumptions/1.md); an unmapped one has no step (notes/assumptions/4.md). -/
def hostRead (offset size : Nat) (s : State) : Host.Outcome State Fault Refusal :=
  match classify offset size with
  | .control off => .next { s with readData := some (controlRead s.block off).toNat }
  | .bufByte k => .next { s with readData := some (Memory.read s.block.buf k).toNat }
  | .bufWord k => .next { s with readData := some (bufWord s.block.buf k).toNat }
  | .refused =>
    .next { s with readData := some (Config.refusedReadData s.freeDraws), freeDraws := s.freeDraws + 1 }
  | .unmapped => .fault (.unmappedAccess offset size)

/-- What a write of `cw` to `CMD` does (30_encoding.md R80): while `ERR = 1` only SRST is executed and every other
word is discarded (60_exceptions.md R197); else an illegal word takes `IllegalCommand` and a legal one runs. -/
def runCommand (cw : Word32) (s : State) : Host.Outcome State Fault Refusal :=
  if s.block.err = true then
    if cw = srstWord then .next (resetBlock s) else .next s
  else
    match decode cw with
    | .error _ => .next (raise .illegalCommand cw s)
    | .ok i => exec i s

/-- A 4-byte write to a control register (R51, R55): `CMD` runs a command, `SCL` stores, the others are accepted
and ignored. -/
def controlWrite (offset : Nat) (value : Word32) (s : State) : Host.Outcome State Fault Refusal :=
  if offset = 0x00 then runCommand value s
  else if offset = 0x08 then .next { s with block := { s.block with scl := value } }
  else .next s

/-- `MemWrite(offset, size, value)`: stores in every state of the block, `ERR = 1` included (R55); a refused write
changes nothing (R54). -/
def hostWrite (offset size : Nat) (value : Word32) (s : State) : Host.Outcome State Fault Refusal :=
  match classify offset size with
  | .control off => controlWrite off value s
  | .bufByte k =>
    .next { s with block := { s.block with buf := Memory.write s.block.buf k (value.extractLsb' 0 8) } }
  | .bufWord k => .next { s with block := { s.block with buf := storeBufWord s.block.buf k value } }
  | .refused => .next s
  | .unmapped => .fault (.unmappedAccess offset size)

/-- One host action, to completion (00_scope.md R9, R14; 70_reset_and_hazards.md R220). -/
def performAction (a : HostAction) (s : State) : Host.Outcome State Fault Refusal :=
  match a with
  | .reset => .next (resetBlock s)
  | .read offset size => hostRead offset size s
  | .write offset size value => hostWrite offset size value s

/-- Perform the host's next action; with none left the block is idle with all state retained (R9, R14; 60_exceptions.md
R205; notes/assumptions/3.md). -/
def performNext (s : State) : Host.Outcome State Fault Refusal :=
  match s.pending with
  | [] => .next s
  | a :: rest => performAction a { s with pending := rest }

/-- The host action that issues the command word `cw`: `MemWrite(0x00, 4, cw)` (R80, R95). -/
def commandWrite (cw : Word32) : HostAction := .write 0x00 4 cw

end Sys2Proof.Machine
end

