-- ==== Sys2Proof/Machine/Step.lean ====
section
/-! DEFINITION. One step of the machine: the next host action, performed to completion (spec/00_scope.md R9, R14;
spec/20_memory.md R60). -/

namespace Sys2Proof.Machine

/-- One step: the host's next action. -/
def step (s : State) : Host.Outcome State Fault Refusal := performNext s

/-- `s` with the write of the word `w` to `CMD` as the host's next action. The block fetches nothing (10_state.md
R27); a command arrives as a host write (30_encoding.md R80), from outside the machine (notes/assumptions/3.md). -/
def State.withFetchWord (s : State) (nbits w : Nat) : State :=
  { s with pending := commandWrite (BitVec.ofNat 32 (w % 2 ^ min nbits 32)) :: s.pending }

end Sys2Proof.Machine
end

