-- ==== Sys2Proof/Machine/HostProgram.lean ====
section
/-! DEFINITION. Programs as the spec writes them: the lines of the host-action notation, the pseudo-instructions and
the assembler (spec/00_scope.md R14; spec/30_encoding.md R90, R91, R95). Nothing here is behaviour of the block. -/

namespace Sys2Proof.Machine

/-- A program, "a finite list of host actions", performed in order (R14). -/
def performAll : List HostAction → State → Host.Outcome State Fault Refusal
  | [], s => .next s
  | a :: as, s =>
    match performAction a s with
    | .next t => performAll as t
    | .fault f => .fault f
    | .refused r => .refused r

/-- A command in the syntax of R90: `MemWrite(0x00, 4, cw)` with `cw` the command's encoding (R95). -/
def cmd (i : Instr) : HostAction := commandWrite (encode i)

/-- `wr SCL, v` (R95). -/
def wrScl (v : Word32) : HostAction := .write 0x08 4 v

/-- `wrbuf k, b0 b1 ...`: one 1-byte write per listed byte, ascending (R95). -/
def wrBuf : Nat → List Byte → List HostAction
  | _, [] => []
  | k, b :: bs => .write (0x80 + k) 1 (b.setWidth 32) :: wrBuf (k + 1) bs

/-- `rd STATUS` (R95). -/
def rdStatus : HostAction := .read 0x04 4

/-- `rd SCL` (R95). -/
def rdScl : HostAction := .read 0x08 4

/-- `rd TZC` (R95). -/
def rdTzc : HostAction := .read 0x0C 4

/-- `rd ERRINFO` (R95). -/
def rdErrInfo : HostAction := .read 0x10 4

/-- `rdbuf k, n`: 1-byte reads for `i` from 0 to `n - 1` (R95). -/
def rdBuf (k n : Nat) : List HostAction := (List.range n).map fun i => .read (0x80 + k + i) 1

/-- `seti wd, v` (R91). -/
def seti (rd : Reg) (v : Word32) : List HostAction := [wrScl v, cmd (.lds rd)]

/-- `addi wd, wa, v` (R91). -/
def addi (rd ra : Reg) (v : Word32) : List HostAction := [wrScl v, cmd (.adds rd ra)]

/-- `subi wd, wa, v` (R91). -/
def subi (rd ra : Reg) (v : Word32) : List HostAction := [wrScl v, cmd (.subs rd ra)]

/-- `ldc wd, <64 bytes>` (R91). -/
def ldc (rd : Reg) (bytes : List Byte) : List HostAction := wrBuf 0 bytes ++ [cmd (.ldb rd 64)]

/-- `sqrmod wd, wa` (R91). -/
def sqrmod (rd ra : Reg) : List HostAction := [cmd (.mulmod rd ra ra)]

/-- A blank of a program line. -/
def isBlank (c : Char) : Bool := c == ' ' || c == '\t'

/-- A text without the blanks around it. -/
def trim (cs : List Char) : List Char := ((cs.dropWhile isBlank).reverse.dropWhile isBlank).reverse

/-- The parts of a text between separators. -/
def splitAtChar (sep : Char) : List Char → List (List Char)
  | [] => [[]]
  | c :: cs =>
    if c = sep then [] :: splitAtChar sep cs
    else
      match splitAtChar sep cs with
      | [] => [[c]]
      | w :: ws => (c :: w) :: ws

/-- The value of a hexadecimal digit. -/
def hexDigit (c : Char) : Option Nat :=
  if '0' ≤ c ∧ c ≤ '9' then some (c.toNat - 48)
  else if 'a' ≤ c ∧ c ≤ 'f' then some (c.toNat - 87)
  else if 'A' ≤ c ∧ c ≤ 'F' then some (c.toNat - 55)
  else none

/-- The value of a digit string in the given base, after the digits already read. -/
def digitsFrom (base : Nat) : Nat → List Char → Option Nat
  | acc, [] => some acc
  | acc, c :: cs =>
    match hexDigit c with
    | some d => if d < base then digitsFrom base (acc * base + d) cs else none
    | none => none

/-- A number: "immediates in decimal or `0x` hexadecimal" (R90). -/
def parseNumber : List Char → Option Nat
  | '0' :: 'x' :: d :: ds => digitsFrom 16 0 (d :: ds)
  | d :: ds => digitsFrom 10 0 (d :: ds)
  | [] => none

/-- A number below `2^bits`. -/
def parseBits (bits : Nat) (cs : List Char) : Option (BitVec bits) :=
  match parseNumber cs with
  | some n => if n < 2 ^ bits then some (BitVec.ofNat bits n) else none
  | none => none

/-- A byte of a `wrbuf` or `ldc` line: two hexadecimal digits (notes/assumptions/7.md). -/
def parseByte (cs : List Char) : Option Byte :=
  match cs with
  | [a, b] => (digitsFrom 16 0 [a, b]).map (BitVec.ofNat 8)
  | _ => none

/-- The bytes of a `wrbuf` or `ldc` line, separated by blanks. -/
def parseBytes (cs : List Char) : Option (List Byte) :=
  ((splitAtChar ' ' cs).filter fun w => !w.isEmpty).mapM parseByte

/-- The written name of a wide register, `w0` to `w15` (10_state.md R21; R90). -/
def regText (r : Reg) : List Char :=
  if r.val < 10 then ['w', Char.ofNat (48 + r.val)] else ['w', '1', Char.ofNat (38 + r.val)]

/-- A register operand. -/
def parseReg (cs : List Char) : Option Reg := (List.finRange 16).find? fun r => regText r == cs

/-- The operands of a format that names one register. -/
def oneReg (f : Reg → Instr) : List (List Char) → Option Instr
  | [a] => (parseReg a).map f
  | _ => none

/-- The operands of a format that names two registers. -/
def twoRegs (f : Reg → Reg → Instr) : List (List Char) → Option Instr
  | [a, b] => do return f (← parseReg a) (← parseReg b)
  | _ => none

/-- The operands of a format that names three registers. -/
def threeRegs (f : Reg → Reg → Reg → Instr) : List (List Char) → Option Instr
  | [a, b, c] => do return f (← parseReg a) (← parseReg b) (← parseReg c)
  | _ => none

/-- The operands of format DI. -/
def regImm (f : Reg → Byte → Instr) : List (List Char) → Option Instr
  | [a, n] => do return f (← parseReg a) (← parseBits 8 n)
  | _ => none

/-- The operands of format DAI. -/
def twoRegsImm (f : Reg → Reg → Byte → Instr) : List (List Char) → Option Instr
  | [a, b, n] => do return f (← parseReg a) (← parseReg b) (← parseBits 8 n)
  | _ => none

/-- A command line: mnemonic (in lower case) and operands, in the order of R90. -/
def parseCommand (mn : List Char) (ops : List (List Char)) : Option Instr :=
  if mn = "nop".toList then (if ops = [] then some .nop else none)
  else if mn = "srst".toList then (if ops = [] then some .srst else none)
  else if mn = "ldb".toList then regImm .ldb ops
  else if mn = "lds".toList then oneReg .lds ops
  else if mn = "mov".toList then twoRegs .mov ops
  else if mn = "stb".toList then oneReg .stb ops
  else if mn = "cmp".toList then twoRegs .cmp ops
  else if mn = "adds".toList then twoRegs .adds ops
  else if mn = "subs".toList then twoRegs .subs ops
  else if mn = "sub".toList then twoRegs .sub ops
  else if mn = "shl".toList then twoRegsImm .shl ops
  else if mn = "shr".toList then twoRegsImm .shr ops
  else if mn = "ctz".toList then oneReg .ctz ops
  else if mn = "setmod".toList then oneReg .setmod ops
  else if mn = "reduce".toList then oneReg .reduce ops
  else if mn = "mulmod".toList then threeRegs .mulmod ops
  else if mn = "powmod".toList then threeRegs .powmod ops
  else none

/-- A line that is not a command: a pseudo-instruction (R91) or a host action (R95). -/
def parseHostLine (mn : List Char) (ops : List (List Char)) : Option (List HostAction) :=
  match ops with
  | [] => if mn = "reset".toList then some [.reset] else none
  | [a] =>
    if mn = "rd".toList then
      if a = "STATUS".toList then some [rdStatus]
      else if a = "SCL".toList then some [rdScl]
      else if a = "TZC".toList then some [rdTzc]
      else if a = "ERRINFO".toList then some [rdErrInfo]
      else none
    else none
  | [a, b] =>
    if mn = "wr".toList then
      if a = "SCL".toList then (parseBits 32 b).map fun v => [wrScl v] else none
    else if mn = "wrbuf".toList then do return wrBuf (← parseNumber a) (← parseBytes b)
    else if mn = "rdbuf".toList then do return rdBuf (← parseNumber a) (← parseNumber b)
    else if mn = "seti".toList then do return seti (← parseReg a) (← parseBits 32 b)
    else if mn = "ldc".toList then do
      let bytes ← parseBytes b
      if bytes.length = 64 then return ldc (← parseReg a) bytes else none
    else if mn = "sqrmod".toList then do return sqrmod (← parseReg a) (← parseReg b)
    else none
  | [a, b, c] =>
    if mn = "addi".toList then do return addi (← parseReg a) (← parseReg b) (← parseBits 32 c)
    else if mn = "subi".toList then do return subi (← parseReg a) (← parseReg b) (← parseBits 32 c)
    else none
  | _ => none

/-- One line of a program (R90): comment from `;` on, a mnemonic in upper or lower case, operands separated by commas.
A line with nothing on it issues nothing; `none` is a line that is not of the notation. -/
def assembleLine (line : String) : Option (List HostAction) :=
  let text := trim (line.toList.takeWhile fun c => c ≠ ';')
  let mn := (text.takeWhile fun c => !isBlank c).map Char.toLower
  let rest := trim (text.dropWhile fun c => !isBlank c)
  let ops := if rest = [] then [] else (splitAtChar ',' rest).map trim
  if text = [] then some []
  else
    match parseCommand mn ops with
    | some i => some [cmd i]
    | none => parseHostLine mn ops

/-- A program text: its lines, in order. -/
def assemble : List String → Option (List HostAction)
  | [] => some []
  | l :: ls => do return (← assembleLine l) ++ (← assemble ls)

end Sys2Proof.Machine
end

