-- ==== Sys2Proof/Machine/HostSequences.lean ====
section
/-! DEFINITION. The host's procedures DECOMP, MRROUND and MRTEST as sequences of host actions with the host's own
control flow (spec/46_host_sequences.md R175 to R181). They are host software, "not block behaviour"; the register
assignment is that of R175: `w0` = N, `w1` = N-1, `w2` = m, `w3` = N-3, `w4` = a, `w5` = y, `w6` = 1. -/

namespace Sys2Proof.Machine

/-- How a witness round ends, by the state names of R181. -/
inductive RoundEnd where
  /-- The round passes. -/
  | earlyAccept
  /-- `y = 1` before reaching `N - 1`: a nontrivial square root of unity, Composite. -/
  | earlyReject
  /-- The loop ended without `y = N - 1`: Composite. -/
  | loopExhausted
deriving DecidableEq, Repr

/-- The verdict of MRTEST (R181). -/
inductive Verdict where
  | probablyPrime
  | composite
deriving DecidableEq, Repr

/-- Why a host procedure gives no answer. -/
inductive HostError where
  /-- The candidate or a sample is not an image of 64 bytes (20_memory.md R58; R182; 60_exceptions.md R192). -/
  | malformedInput
  /-- A host action had no step, or the loop bound was reached; no action of these procedures is refused. -/
  | stuck
deriving DecidableEq, Repr

/-- Perform actions and go on from the state they leave. -/
def proceed (as : List HostAction) (s : State) : Except HostError State :=
  match performAll as s with
  | .next t => .ok t
  | .fault _ => .error .stuck
  | .refused _ => .error .stuck

/-- The `EQ` bit of the `STATUS` the host has just read (10_state.md R29). -/
def eqRead (s : State) : Bool := (s.readData.getD 0) / 8 % 2 == 1

/-- The repeat loop of DECOMP (R176): `ctz w2`, `rd TZC`, `s <- min(t, 31)`, `shr w2, w2, s` if `s > 0`, until
`t <= 31`. `k` is the host's count. -/
def decompLoop : Nat → Nat → State → Except HostError (State × Nat)
  | 0, _, _ => .error .stuck
  | fuel + 1, k, s => do
    let s1 ← proceed [cmd (.ctz 2), rdTzc] s
    let t := s1.readData.getD 0
    let n := min t 31
    let s2 ← proceed (if 0 < n then [cmd (.shr 2 2 (BitVec.ofNat 8 n))] else []) s1
    if t ≤ 31 then return (s2, k + n) else decompLoop fuel (k + n) s2

/-- The passes DECOMP's loop is given: more than `1023 div 31 + 1` (R176). -/
def decompPasses : Nat := 34

/-- DECOMP (R176): from `w0 = N` to `w1 = N - 1`, `w2 = m`, and the host's `k`. -/
def decomp (s : State) : Except HostError (State × Nat) := do
  let s1 ← proceed [wrScl 1, cmd (.subs 1 0), cmd (.mov 2 1)] s
  decompLoop decompPasses 0 s1

/-- The squaring loop of MRROUND, at most `n` squares (R180). -/
def squareLoop : Nat → State → Except HostError (State × RoundEnd)
  | 0, s => .ok (s, .loopExhausted)
  | n + 1, s => do
    let s1 ← proceed [cmd (.mulmod 5 5 5), cmd (.cmp 5 1), rdStatus] s
    if eqRead s1 then return (s1, .earlyAccept)
    else do
      let s2 ← proceed [cmd (.cmp 5 6), rdStatus] s1
      if eqRead s2 then return (s2, .earlyReject) else squareLoop n s2

/-- MRROUND (R180): one witness round, the witness in `w4`, `k` from DECOMP. -/
def mrRound (k : Nat) (s : State) : Except HostError (State × RoundEnd) := do
  let s1 ← proceed [cmd (.powmod 5 4 2), cmd (.cmp 5 6), rdStatus] s
  if eqRead s1 then return (s1, .earlyAccept)
  else do
    let s2 ← proceed [cmd (.cmp 5 1), rdStatus] s1
    if eqRead s2 then return (s2, .earlyAccept) else squareLoop (k - 1) s2

/-- The witness of a round (R180): the sample, drawn below `N - 3` (formed in `w3`), is loaded into `w4` and 2 is
added. The sampler is outside (R177, R178): a sample is a free input. -/
def loadWitness (sample : List Byte) : List HostAction :=
  [wrScl 3, cmd (.subs 3 0)] ++ ldc 4 sample ++ addi 4 4 2

/-- The rounds of MRTEST, one per sample (R181): a single Composite round ends the test. DESIGN CHOICE
(notes/assumptions/11.md): R179 wants the witness bounds established before entry, and this function does not establish
them. A sample is tested for its length alone, not for being below `N - 3`, and `ERR` is not read; where a witness is
outside `[2, N - 2]` or the block is in the fault state the rounds run all the same, and the verdict has no meaning
(93_implementation_defined.md I12). -/
def mrRounds (k : Nat) : List (List Byte) → State → Except HostError (State × Verdict)
  | [], s => .ok (s, .probablyPrime)
  | sample :: rest, s =>
    if sample.length ≠ 64 then .error .malformedInput
    else do
      let s1 ← proceed (loadWitness sample) s
      let (s2, e) ← mrRound k s1
      match e with
      | .earlyAccept => mrRounds k rest s2
      | .earlyReject => return (s2, .composite)
      | .loopExhausted => return (s2, .composite)

/-- The integer of a big-endian byte image (R58). -/
def imageValue : Nat → List Byte → Nat
  | acc, [] => acc
  | acc, b :: bs => imageValue (acc * 256 + b.toNat) bs

/-- The trivial cases the host settles before touching the block (R179): "N < 5 → prime iff N ∈ {2,3}", and even
`N >= 4` is Composite. -/
def trivialVerdict (n : Nat) : Option Verdict :=
  if n < 5 then some (if n = 2 ∨ n = 3 then .probablyPrime else .composite)
  else if n % 2 = 0 then some .composite
  else none

/-- MRTEST (R181) on a candidate image, one round per sample. That every sample is below `N - 3` and that `ERR = 0` are
the caller's to establish (R179; notes/assumptions/11.md). -/
def mrTest (candidate : List Byte) (samples : List (List Byte)) (s : State) :
    Except HostError (State × Verdict) :=
  if candidate.length ≠ 64 then .error .malformedInput
  else
    match trivialVerdict (imageValue 0 candidate) with
    | some v => .ok (s, v)
    | none => do
      let s1 ← proceed (ldc 0 candidate ++ [cmd (.setmod 0)]) s
      let (s2, k) ← decomp s1
      let s3 ← proceed (seti 6 1) s2
      mrRounds k samples s3

end Sys2Proof.Machine
end

