-- ==== Sys2Proof/Machine/Limbs.lean ====
section
/-! DEFINITION. The limb-level references of the comparator, adder, subtractors, shifters and multiplier
(spec/41_compare_addsub.md R121, R128; spec/42_shift_scan.md R133; spec/44_modular_engine.md R154). The integer
results are the normative ones and are what the commands use (92_eei_decisions.md D28); that these algorithms equal
them is stated about them. A limb here is the integer a 32-bit limb holds. -/

namespace Sys2Proof.Machine

/-- The base of the limb numeral, `2^32` (00_scope.md R7). -/
def limbBase : Nat := 2 ^ 32

/-- The 32 limbs of a register in the document's order, most significant first (00_scope.md R11). -/
def limbsMs (v : Wide) : List Nat := (List.range 32).map fun j => (limb v j).toNat

/-- The 32 limbs from the least-significant end: `x_i = limb(x, 31 - i)` (R128). -/
def limbsLs (v : Wide) : List Nat := (List.range 32).map fun i => (limb v (31 - i)).toNat

/-- The integer of a list of limbs, least significant first. -/
def ofLimbsLs : List Nat → Nat
  | [] => 0
  | x :: xs => x + limbBase * ofLimbsLs xs

/-- The integer of a list of limbs, most significant first, after the digits already read (R11). -/
def ofLimbsMsFrom : Nat → List Nat → Nat
  | acc, [] => acc
  | acc, x :: xs => ofLimbsMsFrom (acc * limbBase + x) xs

/-- The integer of a list of limbs, most significant first. -/
def ofLimbsMs (xs : List Nat) : Nat := ofLimbsMsFrom 0 xs

/-- The comparator's scan (R121): (less, equal) at the first limb that differs, most significant first. -/
def compareLimbs : List Nat → List Nat → Bool × Bool
  | x :: xs, y :: ys => if x ≠ y then (decide (x < y), false) else compareLimbs xs ys
  | _, _ => (false, true)

/-- The adder's ripple carry (R128): the first limb adds the scalar, each later one the carry. The second
component is the carry after the last limb. -/
def addLimbs : List Nat → Nat → List Nat × Nat
  | [], c => ([], c)
  | x :: xs, c =>
    let rest := addLimbs xs ((x + c) / limbBase)
    (((x + c) % limbBase) :: rest.1, rest.2)

/-- The scalar subtractor's ripple borrow (R128): the first limb subtracts the scalar, each later one the borrow.
The second component is the borrow after the last limb. -/
def subScalarLimbs : List Nat → Nat → List Nat × Nat
  | [], b => ([], b)
  | x :: xs, b =>
    let rest := subScalarLimbs xs (if x < b then 1 else 0)
    (((x + limbBase - b) % limbBase) :: rest.1, rest.2)

/-- The register subtractor's ripple borrow (R128): `t <- x_i - y_i - borrow`; `r_i <- t mod 2^32`; the borrow is 1
when `t < 0`. -/
def subRegLimbs : List Nat → List Nat → Nat → List Nat × Nat
  | x :: xs, y :: ys, b =>
    let t : Int := (x : Int) - (y : Int) - (b : Int)
    let rest := subRegLimbs xs ys (if t < 0 then 1 else 0)
    ((t % (limbBase : Int)).toNat :: rest.1, rest.2)
  | _, _, b => ([], b)

/-- The left shifter for `1 <= s <= 31` (R133), most significant limb first, `x_32 = 0`:
`r_j <- ((x_j * 2^s) mod 2^32) + (x_(j+1) div 2^(32-s))`. -/
def shlLimbsBy (s : Nat) : List Nat → List Nat
  | [] => []
  | x :: xs => (x * 2 ^ s % limbBase + xs.headD 0 / 2 ^ (32 - s)) :: shlLimbsBy s xs

/-- The right shifter for `1 <= s <= 31` (R133), most significant limb first; `prev` is `x_(j-1)`, 0 at first:
`r_j <- (x_j div 2^s) + ((x_(j-1) * 2^(32-s)) mod 2^32)`. -/
def shrLimbsBy (s : Nat) : Nat → List Nat → List Nat
  | _, [] => []
  | prev, x :: xs => (x / 2 ^ s + prev * 2 ^ (32 - s) % limbBase) :: shrLimbsBy s x xs

/-- The left shifter: "for `s = 0` the result is `x`" (R133), so no shift by 32 is evaluated. -/
def shlLimbs (s : Nat) (xs : List Nat) : List Nat := if s = 0 then xs else shlLimbsBy s xs

/-- The right shifter, with the same case split on `s = 0` (R133). -/
def shrLimbs (s : Nat) (xs : List Nat) : List Nat := if s = 0 then xs else shrLimbsBy s 0 xs

/-- The inner loop of the schoolbook product (R154): limb `a` times the limbs of `b`, accumulated into the limbs of
`p` from `p_i` on; the last carry is stored at `p_(i+16)`. -/
def mulRow (a : Nat) : List Nat → List Nat → Nat → List Nat
  | b :: bs, p :: ps, carry =>
    let t := p + a * b + carry
    (t % limbBase) :: mulRow a bs ps (t / limbBase)
  | [], _ :: ps, carry => carry :: ps
  | _, [], _ => []

/-- The outer loop of the schoolbook product (R154): one row per limb of `a`, each one limb further up in `p`. -/
def mulRows : List Nat → List Nat → List Nat → List Nat
  | [], _, p => p
  | a :: as, bs, p =>
    match mulRow a bs p 0 with
    | [] => []
    | q :: qs => q :: mulRows as bs qs

/-- The schoolbook product of two operands below `2^512` (R154): 16 limbs each, 32 limbs of result. -/
def mulLimbs (x y : Wide) : List Nat :=
  mulRows ((limbsLs x).take 16) ((limbsLs y).take 16) (List.replicate 32 0)

end Sys2Proof.Machine
end

