-- ==== Sys2Proof/Safety.lean ====
section
/-! DEFINITION. What statements are made in terms of: the invariant of the block's state, a successful end of a run,
and what an action changes and leaves unchanged. -/

namespace Sys2Proof.Machine

/-- The invariant of the block: what the spec says of every state a run reaches. -/
structure Block.Inv (b : Block) : Prop where
  /-- `BUF` is in its canonical form, indexes below 128 (10_state.md R33). -/
  bufWf : Memory.wf b.buf = true
  /-- `LT` and `EQ` "are never both 1" (10_state.md R28). -/
  flagsExclusive : (b.lt && b.eq) = false
  /-- `TZC` holds 0 to 1023 (10_state.md R29). -/
  tzcBound : b.tzc.toNat ≤ 1023
  /-- `ERRCODE` and `ERRINFO` are 0 when `ERR = 0` (10_state.md R29). -/
  noFaultRecord : b.err = false → b.errCode = 0#4 ∧ b.errInfo = 0#32
  /-- Codes 1 to 9 when `ERR = 1`; "10 to 15 are never produced" (60_exceptions.md R191). -/
  faultRecord : b.err = true → 1 ≤ b.errCode.toNat ∧ b.errCode.toNat ≤ 9
  /-- While `MV = 0`, `MODN` is 0 (10_state.md R31). -/
  noContext : b.mv = false → b.modn = 0#512
  /-- Whenever `MV = 1`, `1 <= MODN` and `MT[i] = MODN * 2^(512-i)` for `i` in 0 to 512 (10_state.md R31). -/
  context : b.mv = true → 1 ≤ b.modn.toNat ∧ b.mt = shiftedTable b.modn.toNat
  /-- The table always has its 513 entries (10_state.md R20, R30). -/
  tableLength : b.mt.length = Config.tableEntries

/-- A run that ends with `ERR = 1` "ended in a fault and is not a successful run" (00_scope.md R14). -/
def Successful (s : State) : Prop := s.block.err = false

/-- A modulus context is present and is the one the spec describes (10_state.md R31). -/
def ContextReady (b : Block) : Prop :=
  b.mv = true ∧ 1 ≤ b.modn.toNat ∧ b.mt = shiftedTable b.modn.toNat

/-- The host's side is as it was: its program, what it has read, the free draws. -/
def SameHost (s t : State) : Prop :=
  t.pending = s.pending ∧ t.readData = s.readData ∧ t.freeDraws = s.freeDraws

/-- The operand buffer reads as before at every index. -/
def SameBuf (s t : State) : Prop := ∀ k, Memory.read t.block.buf k = Memory.read s.block.buf k

/-- Every wide register but those in `except` holds its value. -/
def SameRegs (except : Reg → Prop) (s t : State) : Prop := ∀ r, ¬ except r → t.reg r = s.reg r

/-- The flags are as they were. -/
def SameFlags (s t : State) : Prop := t.block.lt = s.block.lt ∧ t.block.eq = s.block.eq

/-- The modulus context is as it was. -/
def SameContext (s t : State) : Prop :=
  t.block.mv = s.block.mv ∧ t.block.modn = s.block.modn ∧ t.block.mt = s.block.mt

/-- The fault record is as it was. -/
def SameFaultRecord (s t : State) : Prop :=
  t.block.err = s.block.err ∧ t.block.errCode = s.block.errCode ∧ t.block.errInfo = s.block.errInfo

/-- Everything but the wide register `rd` is as it was. -/
def OnlyReg (rd : Reg) (s t : State) : Prop :=
  SameRegs (· = rd) s t ∧ SameBuf s t ∧ t.block.scl = s.block.scl ∧ t.block.tzc = s.block.tzc ∧
    SameFlags s t ∧ SameContext s t ∧ SameFaultRecord s t ∧ SameHost s t

/-- Everything but the operand buffer is as it was. -/
def OnlyBuf (s t : State) : Prop :=
  SameRegs (fun _ => False) s t ∧ t.block.scl = s.block.scl ∧ t.block.tzc = s.block.tzc ∧
    SameFlags s t ∧ SameContext s t ∧ SameFaultRecord s t ∧ SameHost s t

/-- Everything but the flags `LT` and `EQ` is as it was. -/
def OnlyFlags (s t : State) : Prop :=
  SameRegs (fun _ => False) s t ∧ SameBuf s t ∧ t.block.scl = s.block.scl ∧ t.block.tzc = s.block.tzc ∧
    SameContext s t ∧ SameFaultRecord s t ∧ SameHost s t

/-- Everything but `TZC` is as it was. -/
def OnlyTzc (s t : State) : Prop :=
  SameRegs (fun _ => False) s t ∧ SameBuf s t ∧ t.block.scl = s.block.scl ∧
    SameFlags s t ∧ SameContext s t ∧ SameFaultRecord s t ∧ SameHost s t

/-- Everything but the modulus context is as it was. -/
def OnlyContext (s t : State) : Prop :=
  SameRegs (fun _ => False) s t ∧ SameBuf s t ∧ t.block.scl = s.block.scl ∧ t.block.tzc = s.block.tzc ∧
    SameFlags s t ∧ SameFaultRecord s t ∧ SameHost s t

/-- The fault `c` was taken by the command word `cw` and nothing else happened (60_exceptions.md R196): `t` is `s`
but for the three writes of fault entry. -/
def TookFault (c : Cause) (cw : Word32) (s t : State) : Prop :=
  t.block.err = true ∧ t.block.errCode = c.code ∧ t.block.errInfo = cw ∧
    SameRegs (fun _ => False) s t ∧ SameBuf s t ∧ t.block.scl = s.block.scl ∧ t.block.tzc = s.block.tzc ∧
    SameFlags s t ∧ SameContext s t ∧ SameHost s t

/-- The wide register a command names as destination, "a register is changed only by a command that names it as
destination `rd` (and by reset)" (10_state.md R22). -/
def destination : Instr → Option Reg
  | .nop => none
  | .srst => none
  | .ldb rd _ => some rd
  | .lds rd => some rd
  | .mov rd _ => some rd
  | .stb _ => none
  | .cmp _ _ => none
  | .adds rd _ => some rd
  | .subs rd _ => some rd
  | .sub rd _ => some rd
  | .shl rd _ _ => some rd
  | .shr rd _ _ => some rd
  | .ctz _ => none
  | .setmod _ => none
  | .reduce rd => some rd
  | .mulmod rd _ _ => some rd
  | .powmod rd _ _ => some rd

/-- The faults a command can raise (60_exceptions.md R191, "Raised by"); LDB's `IllegalCommand` is that of a length
above 128, which no legal word has (30_encoding.md R86). -/
def causesOf : Instr → List Cause
  | .nop => []
  | .srst => []
  | .ldb _ _ => [.inputTooWide, .illegalCommand]
  | .lds _ => []
  | .mov _ _ => []
  | .stb _ => []
  | .cmp _ _ => []
  | .adds _ _ => [.addOverflow]
  | .subs _ _ => [.subUnderflow]
  | .sub _ _ => [.subUnderflow]
  | .shl _ _ _ => [.shiftRange]
  | .shr _ _ _ => [.shiftRange]
  | .ctz _ => [.ctzZero]
  | .setmod _ => [.modulusRange]
  | .reduce _ => [.noModulus]
  | .mulmod _ _ _ => [.noModulus, .operandNotReduced]
  | .powmod _ _ _ => [.noModulus, .operandNotReduced]

end Sys2Proof.Machine
end

