-- ==== Sys2Proof/Certificates/Slice0/Obligations.lean ====
section
/-! DEFINITION. The statements for the provers. Each docstring names the rule of spec/ a statement formalises; what a
statement says of a model's choice names its log entry. -/

open Sys2Proof Sys2Proof.Machine

/-! Encoding -/

/-- R81, R83, R85: decoding the word of a well-formed command gives the command back, for every operand value. -/
def Obligations.DecodeOfEncodeIsTheCommand : Prop :=
  ∀ i : Instr, i.wf = true → decode (encode i) = .ok i

/-- R81, R83, R86: a legal word is the word of exactly the command it decodes to, and that command is well formed, so
the word a fault records (`encode i`) is the word the host wrote. -/
def Obligations.EncodeOfDecodeIsTheWord : Prop :=
  ∀ (w : Word32) (i : Instr), decode w = .ok i → encode i = w ∧ i.wf = true

/-- R83, R86: the field decoder agrees with the mask and match columns: a legal word matches its command's row, and a
word that matches a row is that command, "with the one extra check of rule R84 on LDB". -/
def Obligations.LegalWordsAreTheMaskTable : Prop :=
  (∀ (w : Word32) (i : Instr), decode w = .ok i → w &&& (opcodeRow i).mask = (opcodeRow i).pattern) ∧
  (∀ (w : Word32) (i : Instr), w &&& (opcodeRow i).mask = (opcodeRow i).pattern →
    (∃ j, decode w = .ok j ∧ opcodeRow j = opcodeRow i) ∨
    ((opcodeRow i).mnemonic = "LDB" ∧ 128 < w.toNat % 256 ∧ decode w = .error .ldbTooLong))

/-- R83 and the examples of the command rules: words written out by hand decode to the commands they stand for, and
illegal words are refused by name (R86). -/
def Obligations.SampleWordsDecode : Prop :=
  decode 0x00000000#32 = .ok .nop ∧ decode 0x01000000#32 = .ok .srst ∧
  decode 0x10F00040#32 = .ok (.ldb 15 64) ∧ decode 0x20031000#32 = .ok (.cmp 3 1) ∧
  decode 0x31210002#32 = .ok (.shr 2 1 2) ∧ decode 0x40090000#32 = .ok (.setmod 9) ∧
  decode 0x43312000#32 = .ok (.powmod 3 1 2) ∧ decode 0x02000000#32 = .error .unknownOpcode ∧
  decode 0x00000100#32 = .error .zNotZero ∧ decode 0x41100001#32 = .error .unusedFieldNotZero ∧
  decode 0x10300081#32 = .error .ldbTooLong

/-! The commands, one statement per rule: its word, where it completes with its result and its frame, and where it
takes which fault -/

/-- R170: the all-zero word; nothing changes; discarded while `ERR = 1`; "a word with opcode 0x00 and any nonzero lower
bit is not NOP but illegal". -/
def Obligations.NopChangesNothing : Prop :=
  (∀ s : State, (encode .nop).toNat = 0 ∧ exec .nop s = .next s) ∧
  (∀ s : State, s.block.err = true → runCommand (encode .nop) s = .next s) ∧
  (∀ w : Word32, w.toNat / 2 ^ 24 = 0x00 → w ≠ encode .nop → ∃ e, decode w = .error e)

/-- R171: every field but `MT`, which the spec leaves unspecified and unobservable, takes its reset value, and the host
keeps its side; SRST is executed while `ERR = 1` too; a word with opcode 0x01 and a nonzero lower bit is illegal, and
does not reset while `ERR = 1`. -/
def Obligations.SrstTakesTheResetState : Prop :=
  (∀ s : State, runCommand (encode .srst) s = exec .srst s) ∧
  (∀ w : Word32, w.toNat / 2 ^ 24 = 0x01 → w ≠ encode .srst →
    (∃ e, decode w = .error e) ∧ ∀ s : State, s.block.err = true → runCommand w s = .next s) ∧
  ∀ s : State, (encode .srst).toNat = 0x01000000 ∧
    ∃ t, exec .srst s = .next t ∧ (∀ r, t.reg r = 0#1024) ∧ (∀ k, Memory.read t.block.buf k = 0#8) ∧
      t.block.scl = 0#32 ∧ t.block.tzc = 0#32 ∧ t.block.lt = false ∧ t.block.eq = false ∧ t.block.mv = false ∧
      t.block.modn = 0#512 ∧ t.block.err = false ∧ t.block.errCode = 0#4 ∧ t.block.errInfo = 0#32 ∧ SameHost s t

/-- R110: the value by the rule's closed form `sum over k < len of BUF[k] * 256^(len-1-k)`; `InputTooWide` exactly when
it is `2^512` or more, "which can happen only for `len >= 65` and means some byte among `BUF[0 .. len-65]` is nonzero";
the last clause, a length above 128, is the model's choice of what `exec` does with a term that no legal word has
(notes/assumptions/9.md): R80 stops such a word at step 2, before any command rule. -/
def Obligations.LdbLoadsBigEndianBytes : Prop :=
  ∀ (rd : Reg) (len : Byte) (s : State),
    let value := ∑ k ∈ Finset.range len.toNat, (Memory.read s.block.buf k).toNat * 256 ^ (len.toNat - 1 - k)
    (encode (.ldb rd len)).toNat = 0x10000000 + rd.val * 2 ^ 20 + len.toNat ∧
    (len.toNat ≤ 128 → value < 2 ^ 512 →
      ∃ t, exec (.ldb rd len) s = .next t ∧ (t.reg rd).toNat = value ∧ OnlyReg rd s t) ∧
    (len.toNat ≤ 128 → 2 ^ 512 ≤ value →
      ∃ t, exec (.ldb rd len) s = .next t ∧ TookFault .inputTooWide (encode (.ldb rd len)) s t) ∧
    (2 ^ 512 ≤ value ↔ ∃ k, k + 65 ≤ len.toNat ∧ Memory.read s.block.buf k ≠ 0#8) ∧
    (128 < len.toNat →
      ∃ t, exec (.ldb rd len) s = .next t ∧ TookFault .illegalCommand (encode (.ldb rd len)) s t)

/-- R111: the scalar occupies only the lowest limb. -/
def Obligations.LdsConstructsTheScalar : Prop :=
  ∀ (rd : Reg) (s : State),
    (encode (.lds rd)).toNat = 0x11000000 + rd.val * 2 ^ 20 ∧
    ∃ t, exec (.lds rd) s = .next t ∧ (t.reg rd).toNat = s.block.scl.toNat ∧
      limb (t.reg rd) 31 = s.block.scl ∧ (∀ j, j < 31 → limb (t.reg rd) j = 0#32) ∧ OnlyReg rd s t

/-- R112: all 1024 bits are copied. -/
def Obligations.MovCopiesTheRegister : Prop :=
  ∀ (rd ra : Reg) (s : State),
    (encode (.mov rd ra)).toNat = 0x12000000 + rd.val * 2 ^ 20 + ra.val * 2 ^ 16 ∧
    ∃ t, exec (.mov rd ra) s = .next t ∧ t.reg rd = s.reg ra ∧ OnlyReg rd s t

/-- R113: `BUF[k]` is bits `1023 - 8*k` to `1016 - 8*k`, for all 128 bytes; the stored bytes are `BUF[0..127]`. The
buffer is in its canonical form. -/
def Obligations.StbStoresTheBigEndianImage : Prop :=
  ∀ (ra : Reg) (s : State), Memory.wf s.block.buf = true →
    (encode (.stb ra)).toNat = 0x13000000 + ra.val * 2 ^ 16 ∧
    ∃ t, exec (.stb ra) s = .next t ∧
      (∀ k, k < 128 → (Memory.read t.block.buf k).toNat = (s.reg ra).toNat / 2 ^ (1016 - 8 * k) % 256) ∧
      (∀ k, 128 ≤ k → Memory.read t.block.buf k = Memory.read s.block.buf k) ∧ OnlyBuf s t

/-- R120: the flags are the unsigned comparison of the full 1024-bit values. -/
def Obligations.CmpWritesTheFlags : Prop :=
  ∀ (ra rb : Reg) (s : State),
    (encode (.cmp ra rb)).toNat = 0x20000000 + ra.val * 2 ^ 16 + rb.val * 2 ^ 12 ∧
    ∃ t, exec (.cmp ra rb) s = .next t ∧
      (t.block.lt = true ↔ (s.reg ra).toNat < (s.reg rb).toNat) ∧
      (t.block.eq = true ↔ (s.reg ra).toNat = (s.reg rb).toNat) ∧ OnlyFlags s t

/-- R125. -/
def Obligations.AddsAddsTheScalarOrFaults : Prop :=
  ∀ (rd ra : Reg) (s : State),
    (encode (.adds rd ra)).toNat = 0x21000000 + rd.val * 2 ^ 20 + ra.val * 2 ^ 16 ∧
    ((s.reg ra).toNat + s.block.scl.toNat < 2 ^ 1024 →
      ∃ t, exec (.adds rd ra) s = .next t ∧
        (t.reg rd).toNat = (s.reg ra).toNat + s.block.scl.toNat ∧ OnlyReg rd s t) ∧
    (2 ^ 1024 ≤ (s.reg ra).toNat + s.block.scl.toNat →
      ∃ t, exec (.adds rd ra) s = .next t ∧ TookFault .addOverflow (encode (.adds rd ra)) s t)

/-- R126. -/
def Obligations.SubsSubtractsTheScalarOrFaults : Prop :=
  ∀ (rd ra : Reg) (s : State),
    (encode (.subs rd ra)).toNat = 0x22000000 + rd.val * 2 ^ 20 + ra.val * 2 ^ 16 ∧
    (s.block.scl.toNat ≤ (s.reg ra).toNat →
      ∃ t, exec (.subs rd ra) s = .next t ∧
        (t.reg rd).toNat = (s.reg ra).toNat - s.block.scl.toNat ∧ OnlyReg rd s t) ∧
    ((s.reg ra).toNat < s.block.scl.toNat →
      ∃ t, exec (.subs rd ra) s = .next t ∧ TookFault .subUnderflow (encode (.subs rd ra)) s t)

/-- R127. -/
def Obligations.SubSubtractsInPlaceOrFaults : Prop :=
  ∀ (rd ra : Reg) (s : State),
    (encode (.sub rd ra)).toNat = 0x23000000 + rd.val * 2 ^ 20 + ra.val * 2 ^ 16 ∧
    ((s.reg ra).toNat ≤ (s.reg rd).toNat →
      ∃ t, exec (.sub rd ra) s = .next t ∧
        (t.reg rd).toNat = (s.reg rd).toNat - (s.reg ra).toNat ∧ OnlyReg rd s t) ∧
    ((s.reg rd).toNat < (s.reg ra).toNat →
      ∃ t, exec (.sub rd ra) s = .next t ∧ TookFault .subUnderflow (encode (.sub rd ra)) s t)

/-- R130: bits past bit 1023 are discarded. -/
def Obligations.ShlShiftsLeftOrFaults : Prop :=
  ∀ (rd ra : Reg) (amt : Byte) (s : State),
    (encode (.shl rd ra amt)).toNat = 0x30000000 + rd.val * 2 ^ 20 + ra.val * 2 ^ 16 + amt.toNat ∧
    (amt.toNat < 32 →
      ∃ t, exec (.shl rd ra amt) s = .next t ∧
        (t.reg rd).toNat = (s.reg ra).toNat * 2 ^ amt.toNat % 2 ^ 1024 ∧ OnlyReg rd s t) ∧
    (32 ≤ amt.toNat →
      ∃ t, exec (.shl rd ra amt) s = .next t ∧ TookFault .shiftRange (encode (.shl rd ra amt)) s t)

/-- R131. -/
def Obligations.ShrShiftsRightOrFaults : Prop :=
  ∀ (rd ra : Reg) (amt : Byte) (s : State),
    (encode (.shr rd ra amt)).toNat = 0x31000000 + rd.val * 2 ^ 20 + ra.val * 2 ^ 16 + amt.toNat ∧
    (amt.toNat < 32 →
      ∃ t, exec (.shr rd ra amt) s = .next t ∧
        (t.reg rd).toNat = (s.reg ra).toNat / 2 ^ amt.toNat ∧ OnlyReg rd s t) ∧
    (32 ≤ amt.toNat →
      ∃ t, exec (.shr rd ra amt) s = .next t ∧ TookFault .shiftRange (encode (.shr rd ra amt)) s t)

/-- R132: `TZC` is the largest `t` with `2^t` dividing the value, at most 1023. -/
def Obligations.CtzCountsTrailingZerosOrFaults : Prop :=
  ∀ (ra : Reg) (s : State),
    (encode (.ctz ra)).toNat = 0x32000000 + ra.val * 2 ^ 16 ∧
    ((s.reg ra).toNat ≠ 0 →
      ∃ t, exec (.ctz ra) s = .next t ∧ 2 ^ t.block.tzc.toNat ∣ (s.reg ra).toNat ∧
        ¬ 2 ^ (t.block.tzc.toNat + 1) ∣ (s.reg ra).toNat ∧ t.block.tzc.toNat ≤ 1023 ∧ OnlyTzc s t) ∧
    ((s.reg ra).toNat = 0 →
      ∃ t, exec (.ctz ra) s = .next t ∧ TookFault .ctzZero (encode (.ctz ra)) s t)

/-- R140: the context becomes N and its 513 left shifts; a modulus out of range keeps the old context. -/
def Obligations.SetmodBuildsTheContextOrFaults : Prop :=
  ∀ (ra : Reg) (s : State),
    (encode (.setmod ra)).toNat = 0x40000000 + ra.val * 2 ^ 16 ∧
    (1 ≤ (s.reg ra).toNat → (s.reg ra).toNat < 2 ^ 512 →
      ∃ t, exec (.setmod ra) s = .next t ∧ t.block.mv = true ∧ t.block.modn.toNat = (s.reg ra).toNat ∧
        t.block.mt.length = 513 ∧
        (∀ i, i ≤ 512 → ∃ m, t.block.mt[i]? = some m ∧ m.toNat = (s.reg ra).toNat * 2 ^ (512 - i)) ∧
        OnlyContext s t) ∧
    ((s.reg ra).toNat = 0 ∨ 2 ^ 512 ≤ (s.reg ra).toNat →
      ∃ t, exec (.setmod ra) s = .next t ∧ TookFault .modulusRange (encode (.setmod ra)) s t)

/-- R152, R151: the 513 steps run on any value; the value is `v - N * min(v div N, 2^513 - 1)` for the context of R31. -/
def Obligations.ReduceReducesByTheTableOrFaults : Prop :=
  ∀ (rd : Reg) (s : State),
    (encode (.reduce rd)).toNat = 0x41000000 + rd.val * 2 ^ 20 ∧
    (s.block.mv = true →
      ∃ t, exec (.reduce rd) s = .next t ∧
        (t.reg rd).toNat = reduceBy s.block.mt (s.reg rd).toNat ∧ OnlyReg rd s t ∧
        (ContextReady s.block →
          (t.reg rd).toNat = (s.reg rd).toNat -
            s.block.modn.toNat * min ((s.reg rd).toNat / s.block.modn.toNat) (2 ^ 513 - 1))) ∧
    (s.block.mv = false →
      ∃ t, exec (.reduce rd) s = .next t ∧ TookFault .noModulus (encode (.reduce rd)) s t)

/-- R155: with the context of R31 the result is exactly the product modulo N; the faults in their order. -/
def Obligations.MulmodMultipliesModNOrFaults : Prop :=
  ∀ (rd ra rb : Reg) (s : State),
    (encode (.mulmod rd ra rb)).toNat =
      0x42000000 + rd.val * 2 ^ 20 + ra.val * 2 ^ 16 + rb.val * 2 ^ 12 ∧
    (ContextReady s.block → (s.reg ra).toNat < s.block.modn.toNat → (s.reg rb).toNat < s.block.modn.toNat →
      ∃ t, exec (.mulmod rd ra rb) s = .next t ∧
        (t.reg rd).toNat = (s.reg ra).toNat * (s.reg rb).toNat % s.block.modn.toNat ∧ OnlyReg rd s t) ∧
    (s.block.mv = true → s.block.modn.toNat ≤ (s.reg ra).toNat ∨ s.block.modn.toNat ≤ (s.reg rb).toNat →
      ∃ t, exec (.mulmod rd ra rb) s = .next t ∧
        TookFault .operandNotReduced (encode (.mulmod rd ra rb)) s t) ∧
    (s.block.mv = false →
      ∃ t, exec (.mulmod rd ra rb) s = .next t ∧ TookFault .noModulus (encode (.mulmod rd ra rb)) s t)

/-- R160, R161: the closed form, case by case, with the context of R31. -/
def Obligations.PowmodExponentiatesModNOrFaults : Prop :=
  ∀ (rd ra rb : Reg) (s : State),
    (encode (.powmod rd ra rb)).toNat =
      0x43000000 + rd.val * 2 ^ 20 + ra.val * 2 ^ 16 + rb.val * 2 ^ 12 ∧
    (s.block.mv = true → (s.reg rb).toNat = 0 →
      ∃ t, exec (.powmod rd ra rb) s = .next t ∧ (t.reg rd).toNat = 1 ∧ OnlyReg rd s t) ∧
    (s.block.mv = true → 0 < (s.reg rb).toNat → s.block.modn.toNat ≤ (s.reg ra).toNat →
      ∃ t, exec (.powmod rd ra rb) s = .next t ∧
        TookFault .operandNotReduced (encode (.powmod rd ra rb)) s t) ∧
    (ContextReady s.block → 0 < (s.reg rb).toNat → (s.reg ra).toNat < s.block.modn.toNat →
      s.block.modn.toNat = 1 →
      ∃ t, exec (.powmod rd ra rb) s = .next t ∧
        TookFault .operandNotReduced (encode (.powmod rd ra rb)) s t) ∧
    (ContextReady s.block → 0 < (s.reg rb).toNat → (s.reg ra).toNat < s.block.modn.toNat →
      2 ≤ s.block.modn.toNat →
      ∃ t, exec (.powmod rd ra rb) s = .next t ∧
        (t.reg rd).toNat = (s.reg ra).toNat ^ (s.reg rb).toNat % s.block.modn.toNat ∧ OnlyReg rd s t) ∧
    (s.block.mv = false →
      ∃ t, exec (.powmod rd ra rb) s = .next t ∧ TookFault .noModulus (encode (.powmod rd ra rb)) s t)

/-! Closed forms and references -/

/-- R151, whole: the closed form of the reduction loop for every modulus and every 1024-bit value, the condition under
which the result is the remainder, and the result otherwise. -/
def Obligations.ReductionClosedForm : Prop :=
  ∀ n v : Nat, 1 ≤ n → n < 2 ^ 512 → v < 2 ^ 1024 →
    reduceBy (shiftedTable n) v = v - n * min (v / n) (2 ^ 513 - 1) ∧
    (v < n * 2 ^ 513 → reduceBy (shiftedTable n) v = v % n ∧ reduceBy (shiftedTable n) v < n) ∧
    (n * 2 ^ 513 ≤ v → reduceBy (shiftedTable n) v = v - n * (2 ^ 513 - 1) ∧ n ≤ reduceBy (shiftedTable n) v)

/-- R156: `mulmod` as a function, with the context of R31: the product modulo N, or the cause `OperandNotReduced`; the
word the fault records is that of the enclosing command, in the statements of MULMOD and POWMOD. -/
def Obligations.MulmodFunctionIsTheProductModN : Prop :=
  ∀ (b : Block) (x y : Nat), ContextReady b →
    (x < b.modn.toNat → y < b.modn.toNat → mulmodBy b x y = .ok (x * y % b.modn.toNat)) ∧
    (b.modn.toNat ≤ x ∨ b.modn.toNat ≤ y → mulmodBy b x y = .error .operandNotReduced)

/-- R161: after `n` iterations of POWMOD's loop, while the exponent lasts, `PB = b^(2^n) mod N` and
`PR = b^(e mod 2^n) mod N`: the loop goes on from exactly those values. -/
def Obligations.PowmodIterationsSquareAndMultiply : Prop :=
  ∀ (b : Block) (base e n fuel : Nat), ContextReady b → 2 ≤ b.modn.toNat → base < b.modn.toNat → 2 ^ n ≤ 2 * e →
    powmodLoop b (n + fuel) base e 1 =
      powmodLoop b fuel (base ^ 2 ^ n % b.modn.toNat) (e / 2 ^ n) (base ^ (e % 2 ^ n) % b.modn.toNat)

/-- R141: the running value that doubles, filling the table from its last index to its first, builds R140's table. -/
def Obligations.DoublingBuildsTheTable : Prop :=
  ∀ n : Nat, 1 ≤ n → n < 2 ^ 512 → fillTable 513 n [] = shiftedTable n

/-- R11: the limbs, most significant first or least significant first, are the base-`2^32` numeral of the value. -/
def Obligations.LimbsAreTheNumeral : Prop :=
  ∀ v : Wide, ofLimbsMs (limbsMs v) = v.toNat ∧ ofLimbsLs (limbsLs v) = v.toNat ∧ limbsLs v = (limbsMs v).reverse

/-- R121: the comparator's limb scan is the numeric order of the values, the flags CMP writes. -/
def Obligations.LimbScanIsNumericOrder : Prop :=
  ∀ a b : Wide, compareLimbs (limbsMs a) (limbsMs b) = (compareLt a b, compareEq a b)

/-- R128: the ripple-carry adder gives the sum modulo `2^1024`, and its last carry is 1 exactly on overflow. -/
def Obligations.RippleCarryIsTheSum : Prop :=
  ∀ (a : Wide) (c : Word32),
    ofLimbsLs (addLimbs (limbsLs a) c.toNat).1 = (a.toNat + c.toNat) % 2 ^ 1024 ∧
    (addLimbs (limbsLs a) c.toNat).2 = if 2 ^ 1024 ≤ a.toNat + c.toNat then 1 else 0

/-- R128: the ripple-borrow subtractors, of a scalar and of a register, give the difference modulo `2^1024`, and their
last borrow is 1 exactly on underflow. -/
def Obligations.RippleBorrowIsTheDifference : Prop :=
  (∀ (a : Wide) (c : Word32),
    ofLimbsLs (subScalarLimbs (limbsLs a) c.toNat).1 = (a.toNat + 2 ^ 1024 - c.toNat) % 2 ^ 1024 ∧
    (subScalarLimbs (limbsLs a) c.toNat).2 = if a.toNat < c.toNat then 1 else 0) ∧
  (∀ a b : Wide,
    ofLimbsLs (subRegLimbs (limbsLs a) (limbsLs b) 0).1 = (a.toNat + 2 ^ 1024 - b.toNat) % 2 ^ 1024 ∧
    (subRegLimbs (limbsLs a) (limbsLs b) 0).2 = if a.toNat < b.toNat then 1 else 0)

/-- R133: the two-term formulas across limb boundaries are the shifts of R130 and R131, for every legal amount. -/
def Obligations.LimbShiftsAreTheShifts : Prop :=
  ∀ (v : Wide) (s : Nat), s < 32 →
    ofLimbsMs (shlLimbs s (limbsMs v)) = v.toNat * 2 ^ s % 2 ^ 1024 ∧
    ofLimbsMs (shrLimbs s (limbsMs v)) = v.toNat / 2 ^ s

/-- R153, R154: the schoolbook loop on two operands below `2^512` gives the exact product, in 32 limbs. -/
def Obligations.SchoolbookIsTheExactProduct : Prop :=
  ∀ a b : Wide, a.toNat < 2 ^ 512 → b.toNat < 2 ^ 512 →
    ofLimbsLs (mulLimbs a b) = a.toNat * b.toNat ∧ (mulLimbs a b).length = 32 ∧ ∀ p ∈ mulLimbs a b, p < 2 ^ 32

/-! The machine: steps, faults, the fault state, reset -/

/-- R80: when the host's next action writes a legal word to `CMD` and no fault is recorded, the step is the command
itself, the action being used up. -/
def Obligations.StepRunsTheDecodedCommand : Prop :=
  ∀ (s : State) (cw : Word32) (i : Instr) (rest : List HostAction),
    s.pending = commandWrite cw :: rest → s.block.err = false → decode cw = .ok i →
    step s = exec i { s with pending := rest }

/-- R86, R196: an illegal word takes the fault `IllegalCommand`, recorded with the word, and does nothing else. -/
def Obligations.StepFaultsOnIllegalWords : Prop :=
  ∀ (s : State) (cw : Word32) (e : Illegal) (rest : List HostAction),
    s.pending = commandWrite cw :: rest → s.block.err = false → decode cw = .error e →
    ∃ t, step s = .next t ∧ TookFault .illegalCommand cw { s with pending := rest } t

/-- R197: while `ERR = 1` every word but SRST's is discarded with no state change of any kind, and SRST takes the reset
state (R171, R198). -/
def Obligations.FaultStateDiscardsAllButSrst : Prop :=
  ∀ (s : State) (cw : Word32) (rest : List HostAction),
    s.pending = commandWrite cw :: rest → s.block.err = true →
    (cw ≠ 0x01000000#32 → step s = .next { s with pending := rest }) ∧
    (cw = 0x01000000#32 → ∃ t, step s = .next t ∧ exec .srst { s with pending := rest } = .next t)

/-- R198: the fault state is left by nothing but SRST and hardware reset, and until then the fault record keeps the
first fault. -/
def Obligations.OnlyResetLeavesTheFaultState : Prop :=
  ∀ (s t : State), s.block.err = true → step s = .next t →
    SameFaultRecord s t ∨
    (t.block.err = false ∧ ∃ rest, s.pending = .reset :: rest ∨ s.pending = commandWrite 0x01000000#32 :: rest)

/-- R220: hardware reset may occur in any state and has the effect of SRST. -/
def Obligations.HardwareResetIsSrst : Prop :=
  ∀ (s : State) (rest : List HostAction), s.pending = .reset :: rest →
    ∃ t, step s = .next t ∧ exec .srst { s with pending := rest } = .next t

/-- R221, `STATUS` included; `MT` is unspecified there and nothing is said of it. -/
def Obligations.ResetStateOfTheBlock : Prop :=
  (∀ r, State.reset.reg r = 0#1024) ∧ (∀ k, Memory.read State.reset.block.buf k = 0#8) ∧
  State.reset.block.scl = 0#32 ∧ State.reset.block.tzc = 0#32 ∧ State.reset.block.lt = false ∧
  State.reset.block.eq = false ∧ State.reset.block.mv = false ∧ State.reset.block.modn = 0#512 ∧
  State.reset.block.err = false ∧ State.reset.block.errCode = 0#4 ∧ State.reset.block.errInfo = 0#32 ∧
  statusWord State.reset.block = 0#32

/-- R9, R205 and notes/assumptions/3.md (the model's choice of what a step is with no action left): the block is idle
with all state retained. -/
def Obligations.IdleWithNoHostAction : Prop :=
  ∀ s : State, s.pending = [] → step s = .next s

/-- R231: every command terminates: it is a total function from state to state, with no stop of the model. -/
def Obligations.EveryCommandAnswers : Prop :=
  ∀ (i : Instr) (s : State), ∃ t, exec i s = .next t

/-- R80, R196: a command "either completes all its writes or, on a fault, makes none and performs fault entry only". -/
def Obligations.CommandCompletesOrOnlyFaults : Prop :=
  ∀ (i : Instr) (s t : State), s.block.err = false → exec i s = .next t →
    (t.block.err = false ∧ t.block.errCode = (if i = .srst then 0#4 else s.block.errCode) ∧
      t.block.errInfo = (if i = .srst then 0#32 else s.block.errInfo)) ∨
    ∃ c, TookFault c (encode i) s t

/-- R191: which command raises which cause. That LDB is also given `IllegalCommand` is the model's choice for a term that
no legal word has (notes/assumptions/9.md). -/
def Obligations.FaultCausesOfEachCommand : Prop :=
  ∀ (i : Instr) (s t : State) (c : Cause), s.block.err = false → exec i s = .next t → t.block.err = true →
    t.block.errCode = c.code → c ∈ causesOf i

/-- R28: "Only CMP and reset write the flags." -/
def Obligations.FlagsWrittenOnlyByCmpAndReset : Prop :=
  ∀ (i : Instr) (s t : State), exec i s = .next t → i ≠ .srst → (∀ ra rb, i ≠ .cmp ra rb) → SameFlags s t

/-- R30: "only SETMOD (`43_modulus_context.md` rule R140) and reset write it", the context, whatever the host does in
one step. -/
def Obligations.ContextWrittenOnlyBySetmodAndReset : Prop :=
  ∀ s t : State, step s = .next t → SameContext s t ∨
    (∃ rest, s.pending = .reset :: rest) ∨
    (∃ cw rest, s.pending = commandWrite cw :: rest ∧
      (decode cw = .ok .srst ∨ ∃ ra, decode cw = .ok (.setmod ra)))

/-- R22: "A register is changed only by a command that names it as destination `rd` (and by reset)". -/
def Obligations.RegistersWrittenOnlyAsDestination : Prop :=
  ∀ (i : Instr) (s t : State) (r : Reg), exec i s = .next t → i ≠ .srst → destination i ≠ some r →
    t.reg r = s.reg r

/-- R20, R29: no command but SRST writes `SCL`, none but CTZ and SRST writes `TZC`, none but STB and SRST writes `BUF`,
and no command touches the host's side. -/
def Obligations.WritersOfSclTzcAndBuf : Prop :=
  ∀ (i : Instr) (s t : State), exec i s = .next t →
    (i ≠ .srst → t.block.scl = s.block.scl) ∧
    (i ≠ .srst → (∀ ra, i ≠ .ctz ra) → t.block.tzc = s.block.tzc) ∧
    (i ≠ .srst → (∀ ra, i ≠ .stb ra) → SameBuf s t) ∧ SameHost s t

/-- The invariant of the block (R28, R29, R31, R191, the canonical form of the buffer) is kept by every step. -/
def Obligations.StepKeepsTheInvariant : Prop :=
  ∀ s t : State, s.block.Inv → step s = .next t → t.block.Inv

/-- The invariant holds at reset. -/
def Obligations.ResetHasTheInvariant : Prop := State.reset.block.Inv

/-- Two buffers in canonical form that read the same are the same data. -/
def Obligations.CanonicalBufferIsDetermined : Prop :=
  ∀ m m' : Memory, Memory.wf m = true → Memory.wf m' = true →
    (∀ k, Memory.read m k = Memory.read m' k) → m = m'

/-- R113: STB then LDB of 128 bytes moves a value below `2^512` from one register to another. -/
def Obligations.StbThenLdbMovesTheValue : Prop :=
  ∀ (rd ra : Reg) (s : State), Memory.wf s.block.buf = true → (s.reg ra).toNat < 2 ^ 512 →
    ∃ t u, exec (.stb ra) s = .next t ∧ exec (.ldb rd 128) t = .next u ∧ u.reg rd = s.reg ra ∧
      u.block.err = s.block.err

/-! Host accesses -/

/-- R29, R51, R52: what a 4-byte read of each control register returns; nothing else changes (R55). -/
def Obligations.ControlRegistersReadAsSpecified : Prop :=
  ∀ (s : State) (rest : List HostAction),
    (s.pending = .read 0x00 4 :: rest → step s = .next { s with pending := rest, readData := some 0 }) ∧
    (s.pending = .read 0x04 4 :: rest → step s = .next { s with
      pending := rest
      readData := some (s.block.err.toNat + 2 * s.block.mv.toNat + 4 * s.block.lt.toNat + 8 * s.block.eq.toNat +
        16 * s.block.errCode.toNat) }) ∧
    (s.pending = .read 0x08 4 :: rest →
      step s = .next { s with pending := rest, readData := some s.block.scl.toNat }) ∧
    (s.pending = .read 0x0C 4 :: rest →
      step s = .next { s with pending := rest, readData := some s.block.tzc.toNat }) ∧
    (s.pending = .read 0x10 4 :: rest →
      step s = .next { s with pending := rest, readData := some s.block.errInfo.toNat })

/-- R53: 1-byte reads of `BUF`, and aligned 4-byte reads, big-endian; nothing else changes (R55). -/
def Obligations.BufferReadsAreBigEndian : Prop :=
  ∀ (s : State) (rest : List HostAction) (k : Nat),
    (k < 128 → s.pending = .read (0x80 + k) 1 :: rest →
      step s = .next { s with pending := rest, readData := some (Memory.read s.block.buf k).toNat }) ∧
    (k % 4 = 0 → k < 128 → s.pending = .read (0x80 + k) 4 :: rest →
      step s = .next { s with
        pending := rest
        readData := some ((Memory.read s.block.buf k).toNat * 2 ^ 24 +
          (Memory.read s.block.buf (k + 1)).toNat * 2 ^ 16 + (Memory.read s.block.buf (k + 2)).toNat * 2 ^ 8 +
          (Memory.read s.block.buf (k + 3)).toNat) })

/-- R53, R55: 1-byte and aligned 4-byte writes of `BUF` store those bytes and do nothing else, `ERR = 1` included. The
buffer is in its canonical form. -/
def Obligations.BufferWritesStoreTheirBytes : Prop :=
  ∀ (s : State) (rest : List HostAction) (k : Nat) (v : Word32), Memory.wf s.block.buf = true →
    (k < 128 → s.pending = .write (0x80 + k) 1 v :: rest →
      ∃ t, step s = .next t ∧ (Memory.read t.block.buf k).toNat = v.toNat % 256 ∧
        (∀ j, j ≠ k → Memory.read t.block.buf j = Memory.read s.block.buf j) ∧
        OnlyBuf { s with pending := rest } t) ∧
    (k % 4 = 0 → k < 128 → s.pending = .write (0x80 + k) 4 v :: rest →
      ∃ t, step s = .next t ∧ (∀ j, j < 4 → (Memory.read t.block.buf (k + j)).toNat = v.toNat / 2 ^ (24 - 8 * j) % 256) ∧
        (∀ j, j < k ∨ k + 4 ≤ j → Memory.read t.block.buf j = Memory.read s.block.buf j) ∧
        OnlyBuf { s with pending := rest } t)

/-- R55: a write to `SCL` stores the value in every state of the block; a write to `STATUS`, `TZC` or `ERRINFO` is
accepted and ignored. -/
def Obligations.ControlWritesStoreOrAreIgnored : Prop :=
  ∀ (s : State) (rest : List HostAction) (v : Word32),
    (s.pending = .write 0x08 4 v :: rest →
      step s = .next { s with pending := rest, block := { s.block with scl := v } }) ∧
    (s.pending = .write 0x04 4 v :: rest ∨ s.pending = .write 0x0C 4 v :: rest ∨
      s.pending = .write 0x10 4 v :: rest → step s = .next { s with pending := rest })

/-- R54 with notes/assumptions/1.md and 4.md (which of R54's two treatments the model gives to which access is the
model's choice): an access to mapped locations of a size or alignment they do not accept changes no state of the
block, a read returning some datum; an access that touches an offset the map does not have has no step. -/
def Obligations.RefusedAccessesChangeNoState : Prop :=
  ∀ (s : State) (rest : List HostAction) (off size : Nat) (v : Word32),
    (off + size ≤ 0x14 ∨ (0x80 ≤ off ∧ off + size ≤ 0x100) → ¬ (size = 4 ∧ off % 4 = 0) →
      ¬ (size = 1 ∧ 0x80 ≤ off) →
      (s.pending = .write off size v :: rest → step s = .next { s with pending := rest }) ∧
      (s.pending = .read off size :: rest →
        ∃ d n, step s = .next { s with pending := rest, readData := some d, freeDraws := n })) ∧
    (0x14 < off + size ∧ off < 0x80 ∨ 0x100 < off + size →
      (s.pending = .write off size v :: rest → step s = .fault (.unmappedAccess off size)) ∧
      (s.pending = .read off size :: rest → step s = .fault (.unmappedAccess off size)))

/-! Host sequences -/

/-- R176: DECOMP, run with the block's commands from `w0 = N >= 2`, ends without a fault with `w1 = N - 1`, `w2 = m`
odd and `N - 1 = m * 2^k`. That the host's procedure is a function over host actions is notes/assumptions/8.md. -/
def Obligations.DecompReconstructsNMinusOne : Prop :=
  ∀ s : State, s.block.err = false → 2 ≤ (s.reg 0).toNat →
    ∃ t k, decomp s = .ok (t, k) ∧ t.block.err = false ∧ t.reg 0 = s.reg 0 ∧
      (t.reg 1).toNat = (s.reg 0).toNat - 1 ∧ (t.reg 2).toNat % 2 = 1 ∧
      (t.reg 1).toNat = (t.reg 2).toNat * 2 ^ k

/-- R180, R181 and the document's property S1: a witness round of an odd prime `N >= 5` passes, whatever the witness in
`[2, N - 2]`; no command of the round faults. That the host's procedure is a function over host actions is
notes/assumptions/8.md; the bounds of the witness are hypotheses, as R179 wants them (notes/assumptions/11.md). -/
def Obligations.WitnessRoundsOfPrimesPass : Prop :=
  ∀ (s : State) (k : Nat), s.block.err = false → ContextReady s.block → Nat.Prime s.block.modn.toNat →
    5 ≤ s.block.modn.toNat → (s.reg 1).toNat = s.block.modn.toNat - 1 →
    (s.reg 1).toNat = (s.reg 2).toNat * 2 ^ k → 1 ≤ k → (s.reg 6).toNat = 1 →
    2 ≤ (s.reg 4).toNat → (s.reg 4).toNat + 2 ≤ s.block.modn.toNat →
    ∃ t, mrRound k s = .ok (t, .earlyAccept) ∧ t.block.err = false
end

