-- ==== Sys2Proof/Laws/State.lean ====
section
/-! SUPPORT. What each update of the state leaves in each field, one lemma per field per update, so that later proofs
do not unfold a record update. -/

namespace Sys2Proof.Machine

section setReg
variable (s : State) (r : Reg) (v : Wide)

@[simp] theorem setReg_buf : (s.setReg r v).block.buf = s.block.buf := rfl
@[simp] theorem setReg_scl : (s.setReg r v).block.scl = s.block.scl := rfl
@[simp] theorem setReg_tzc : (s.setReg r v).block.tzc = s.block.tzc := rfl
@[simp] theorem setReg_lt : (s.setReg r v).block.lt = s.block.lt := rfl
@[simp] theorem setReg_eq : (s.setReg r v).block.eq = s.block.eq := rfl
@[simp] theorem setReg_mv : (s.setReg r v).block.mv = s.block.mv := rfl
@[simp] theorem setReg_modn : (s.setReg r v).block.modn = s.block.modn := rfl
@[simp] theorem setReg_mt : (s.setReg r v).block.mt = s.block.mt := rfl
@[simp] theorem setReg_err : (s.setReg r v).block.err = s.block.err := rfl
@[simp] theorem setReg_errCode : (s.setReg r v).block.errCode = s.block.errCode := rfl
@[simp] theorem setReg_errInfo : (s.setReg r v).block.errInfo = s.block.errInfo := rfl
@[simp] theorem setReg_pending : (s.setReg r v).pending = s.pending := rfl
@[simp] theorem setReg_readData : (s.setReg r v).readData = s.readData := rfl
@[simp] theorem setReg_freeDraws : (s.setReg r v).freeDraws = s.freeDraws := rfl

@[simp] theorem reg_setReg_same : (s.setReg r v).reg r = v := by
  simp [State.reg, State.setReg, Vector.get_eq_getElem]

theorem reg_setReg_other {q : Reg} (h : q ≠ r) : (s.setReg r v).reg q = s.reg q := by
  have h' : r.val ≠ q.val := fun e => h (Fin.ext e.symm)
  simp [State.reg, State.setReg, Vector.get_eq_getElem, h']

end setReg

section raise
variable (c : Cause) (cw : Word32) (s : State)

@[simp] theorem raise_w : (raise c cw s).block.w = s.block.w := rfl
@[simp] theorem raise_buf : (raise c cw s).block.buf = s.block.buf := rfl
@[simp] theorem raise_scl : (raise c cw s).block.scl = s.block.scl := rfl
@[simp] theorem raise_tzc : (raise c cw s).block.tzc = s.block.tzc := rfl
@[simp] theorem raise_lt : (raise c cw s).block.lt = s.block.lt := rfl
@[simp] theorem raise_eq : (raise c cw s).block.eq = s.block.eq := rfl
@[simp] theorem raise_mv : (raise c cw s).block.mv = s.block.mv := rfl
@[simp] theorem raise_modn : (raise c cw s).block.modn = s.block.modn := rfl
@[simp] theorem raise_mt : (raise c cw s).block.mt = s.block.mt := rfl
@[simp] theorem raise_err : (raise c cw s).block.err = true := rfl
@[simp] theorem raise_errCode : (raise c cw s).block.errCode = c.code := rfl
@[simp] theorem raise_errInfo : (raise c cw s).block.errInfo = cw := rfl
@[simp] theorem raise_pending : (raise c cw s).pending = s.pending := rfl
@[simp] theorem raise_readData : (raise c cw s).readData = s.readData := rfl
@[simp] theorem raise_freeDraws : (raise c cw s).freeDraws = s.freeDraws := rfl
@[simp] theorem raise_reg (r : Reg) : (raise c cw s).reg r = s.reg r := rfl

end raise

section resetBlock
variable (s : State)

@[simp] theorem resetBlock_block : (resetBlock s).block = Block.reset := rfl
@[simp] theorem resetBlock_pending : (resetBlock s).pending = s.pending := rfl
@[simp] theorem resetBlock_readData : (resetBlock s).readData = s.readData := rfl
@[simp] theorem resetBlock_freeDraws : (resetBlock s).freeDraws = s.freeDraws := rfl
@[simp] theorem resetBlock_reg (r : Reg) : (resetBlock s).reg r = 0#1024 := by
  simp [State.reg, Block.reset, Vector.get_eq_getElem]

end resetBlock

/-- Every fault cause has a code from 1 to 9 (spec/60_exceptions.md R191). -/
theorem code_range (c : Cause) : 1 ≤ c.code.toNat ∧ c.code.toNat ≤ 9 := by cases c <;> decide

/-- Two causes never share a code (spec/60_exceptions.md R191). -/
theorem code_injective {c d : Cause} (h : c.code = d.code) : c = d := by
  revert h; cases c <;> cases d <;> decide

end Sys2Proof.Machine
end

