-- ==== Sys2Proof/Laws/Ops.lean ====
section
/-! SUPPORT. One lemma for each shared operation that says all it can do; later proofs cite these and do not unfold the
operation. -/

namespace Sys2Proof.Machine

/-- A command either completes or takes one fault (spec/30_encoding.md R80). -/
theorem complete_next {cw : Word32} {s t : State} {r : Except Cause State} (h : complete cw s r = .next t) :
    r = .ok t ∨ ∃ c, r = .error c ∧ t = raise c cw s := by
  cases r with
  | ok u => left; simpa [complete] using h
  | error c => right; exact ⟨c, rfl, by simpa [complete] using h.symm⟩

@[simp] theorem complete_ok (cw : Word32) (s t : State) : complete cw s (.ok t) = .next t := rfl

@[simp] theorem complete_error (cw : Word32) (s : State) (c : Cause) :
    complete cw s (.error c) = .next (raise c cw s) := rfl

theorem addScalar_ok {a : Wide} {c : Word32} (h : a.toNat + c.toNat < 2 ^ 1024) :
    addScalar a c = .ok (BitVec.ofNat 1024 (a.toNat + c.toNat)) := if_neg (Nat.not_le.mpr h)

theorem addScalar_overflow {a : Wide} {c : Word32} (h : 2 ^ 1024 ≤ a.toNat + c.toNat) :
    addScalar a c = .error .addOverflow := if_pos h

theorem subExact_ok {a b : Wide} (h : b.toNat ≤ a.toNat) :
    subExact a b = .ok (BitVec.ofNat 1024 (a.toNat - b.toNat)) := if_neg (Nat.not_lt.mpr h)

theorem subExact_underflow {a b : Wide} (h : a.toNat < b.toNat) : subExact a b = .error .subUnderflow := if_pos h

@[simp] theorem scalarWide_toNat (c : Word32) : (scalarWide c).toNat = c.toNat :=
  BitVec.toNat_setWidth_of_le (by decide)

/-- One step of the reduction loop (spec/44_modular_engine.md R150). -/
theorem reduceBy_cons (m : Wide) (mt : List Wide) (v : Nat) :
    reduceBy (m :: mt) v = if m.toNat ≤ v then reduceBy mt (v - m.toNat) else reduceBy mt v := by
  by_cases h : m.toNat ≤ v
  · simp [reduceBy, h, Nat.ble_eq_true_of_le h]
  · simp [reduceBy, h, Bool.eq_false_iff.mpr (fun e => h (Nat.le_of_ble_eq_true e))]

/-- Reduction never makes a value larger. -/
theorem reduceBy_le (mt : List Wide) (v : Nat) : reduceBy mt v ≤ v := by
  induction mt generalizing v with
  | nil => exact Nat.le_refl v
  | cons m mt ih =>
    rw [reduceBy_cons]
    split
    · exact Nat.le_trans (ih _) (Nat.sub_le _ _)
    · exact ih v

/-- A multiplication with both operands below the modulus. -/
theorem mulmodBy_ok {b : Block} {x y : Nat} (hx : x < b.modn.toNat) (hy : y < b.modn.toNat) :
    mulmodBy b x y = .ok (reduceBy b.mt (x * y)) := by
  simp [mulmodBy, Nat.not_le.mpr hx, Nat.not_le.mpr hy]

/-- A multiplication with an operand that is not below the modulus. -/
theorem mulmodBy_error {b : Block} {x y : Nat} (h : b.modn.toNat ≤ x ∨ b.modn.toNat ≤ y) :
    mulmodBy b x y = .error .operandNotReduced := by
  unfold mulmodBy
  split
  · rfl
  · rw [if_pos (h.resolve_left ‹_›)]

/-- The loop of POWMOD raises no fault but `OperandNotReduced`. -/
theorem powmodLoop_error {b : Block} {fuel pb pe pr : Nat} {c : Cause}
    (h : powmodLoop b fuel pb pe pr = .error c) : c = .operandNotReduced := by
  have hm : ∀ x y c, mulmodBy b x y = .error c → c = .operandNotReduced := by
    intro x y c h
    unfold mulmodBy at h
    split at h
    · cases h; rfl
    · split at h
      · cases h; rfl
      · cases h
  induction fuel generalizing pb pe pr with
  | zero => simp [powmodLoop] at h
  | succ n ih =>
    unfold powmodLoop at h
    split at h
    · cases h
    · split at h
      · rename_i c' hc
        cases h
        split at hc
        · exact hm _ _ _ hc
        · cases hc
      · split at h
        · rename_i c' hc
          cases h
          exact hm _ _ _ hc
        · exact ih h

/-- What a write of a word to `CMD` can do: while faulted, reset or nothing; else a fault or a command
(spec/30_encoding.md R80). -/
theorem runCommand_cases (cw : Word32) (s : State) :
    (s.block.err = true ∧ cw = srstWord ∧ runCommand cw s = .next (resetBlock s)) ∨
    (s.block.err = true ∧ cw ≠ srstWord ∧ runCommand cw s = .next s) ∨
    (s.block.err = false ∧ (∃ e, decode cw = .error e) ∧ runCommand cw s = .next (raise .illegalCommand cw s)) ∨
    (s.block.err = false ∧ ∃ i, decode cw = .ok i ∧ runCommand cw s = exec i s) := by
  unfold runCommand
  by_cases he : s.block.err = true
  · rw [if_pos he]
    by_cases hc : cw = srstWord
    · exact .inl ⟨he, hc, if_pos hc⟩
    · exact .inr (.inl ⟨he, hc, if_neg hc⟩)
  · rw [if_neg he]
    have he' : s.block.err = false := Bool.eq_false_iff.mpr he
    cases hd : decode cw with
    | error e => exact .inr (.inr (.inl ⟨he', ⟨e, rfl⟩, rfl⟩))
    | ok i => exact .inr (.inr (.inr ⟨he', i, rfl, rfl⟩))

/-- What a host read can do (spec/20_memory.md R52 to R55): it never changes the block or the program. -/
theorem hostRead_next {offset size : Nat} {s t : State} (h : hostRead offset size s = .next t) :
    t.block = s.block ∧ t.pending = s.pending := by
  unfold hostRead at h
  split at h
  · injection h with h; subst h; exact ⟨rfl, rfl⟩
  · injection h with h; subst h; exact ⟨rfl, rfl⟩
  · injection h with h; subst h; exact ⟨rfl, rfl⟩
  · injection h with h; subst h; exact ⟨rfl, rfl⟩
  · cases h

/-- An accepted 4-byte access to `BUF` stays inside it (spec/20_memory.md R53). -/
theorem classify_bufWord {offset size k : Nat} (h : classify offset size = .bufWord k) :
    k + 3 < Config.bufBytes ∧ size = 4 ∧ offset = Config.bufBase + k := by
  unfold classify at h
  split at h
  · cases h
  · split at h
    · cases h
    · split at h
      · rename_i h3
        injection h with h
        simp only [Config.bufBase, Config.mapEnd, Config.bufBytes] at *
        omega
      · split at h <;> cases h

/-- An accepted 1-byte access to `BUF` stays inside it (spec/20_memory.md R53). -/
theorem classify_bufByte {offset size k : Nat} (h : classify offset size = .bufByte k) :
    k < Config.bufBytes ∧ size = 1 ∧ offset = Config.bufBase + k := by
  unfold classify at h
  split at h
  · cases h
  · split at h
    · rename_i h3
      injection h with h
      simp only [Config.bufBase, Config.mapEnd, Config.bufBytes] at *
      omega
    · split at h
      · cases h
      · split at h <;> cases h

/-- An index of `BUF` back from its offset. -/
theorem bufIndex_offset (k : Nat) : Config.bufBase + k - Config.bufBase = k := Nat.add_sub_cancel_left _ _

/-- A 1-byte access to `BUF[k]` is accepted (spec/20_memory.md R53). -/
theorem classify_bufByte_offset {k : Nat} (hk : k < 128) : classify (0x80 + k) 1 = .bufByte k := by
  have h : ¬ (1 = 4 ∧ (0x80 + k) % 4 = 0 ∧ 0x80 + k < 0x14) := by omega
  have h2 : 1 = 1 ∧ 0x80 ≤ 0x80 + k ∧ 0x80 + k < 0x100 := by omega
  have hi := bufIndex_offset k
  unfold Config.bufBase at hi
  unfold classify Config.controlEnd Config.bufBase Config.mapEnd
  rw [if_neg h, if_pos h2, hi]

/-- An aligned 4-byte access to `BUF` is accepted (spec/20_memory.md R53). -/
theorem classify_bufWord_offset {k : Nat} (h4 : k % 4 = 0) (hk : k < 128) : classify (0x80 + k) 4 = .bufWord k := by
  have h : ¬ (4 = 4 ∧ (0x80 + k) % 4 = 0 ∧ 0x80 + k < 0x14) := by omega
  have h1 : ¬ (4 = 1 ∧ 0x80 ≤ 0x80 + k ∧ 0x80 + k < 0x100) := by omega
  have h2 : 4 = 4 ∧ (0x80 + k) % 4 = 0 ∧ 0x80 ≤ 0x80 + k ∧ 0x80 + k < 0x100 := by omega
  have hi := bufIndex_offset k
  unfold Config.bufBase at hi
  unfold classify Config.controlEnd Config.bufBase Config.mapEnd
  rw [if_neg h, if_neg h1, if_pos h2, hi]

/-- What a host write can do (spec/20_memory.md R51 to R55). -/
theorem hostWrite_cases {offset size : Nat} {value : Word32} {s t : State}
    (h : hostWrite offset size value s = .next t) :
    runCommand value s = .next t ∨ t = s ∨ t = { s with block := { s.block with scl := value } } ∨
    (∃ k, k < Config.bufBytes ∧
      t = { s with block := { s.block with buf := Memory.write s.block.buf k (value.extractLsb' 0 8) } }) ∨
    (∃ k, k + 3 < Config.bufBytes ∧ t = { s with block := { s.block with buf := storeBufWord s.block.buf k value } }) := by
  unfold hostWrite at h
  split at h
  · unfold controlWrite at h
    split at h
    · exact .inl h
    · split at h <;> cases h
      · exact .inr (.inr (.inl rfl))
      · exact .inr (.inl rfl)
  · rename_i k hk
    cases h
    exact .inr (.inr (.inr (.inl ⟨k, (classify_bufByte hk).1, rfl⟩)))
  · rename_i k hk
    cases h
    exact .inr (.inr (.inr (.inr ⟨k, (classify_bufWord hk).1, rfl⟩)))
  · cases h; exact .inr (.inl rfl)
  · cases h

/-- What a step can do: nothing when no action is pending, else the next host action (spec/00_scope.md R14). -/
theorem performNext_cases (s : State) :
    (s.pending = [] ∧ performNext s = .next s) ∨
    ∃ a rest, s.pending = a :: rest ∧ performNext s = performAction a { s with pending := rest } := by
  unfold performNext
  cases h : s.pending with
  | nil => simp
  | cons a rest => simp

end Sys2Proof.Machine
end

