-- ==== Sys2Proof/Laws/PerInstr.lean ====
section
/-! SUPPORT. One statement per instruction: the fields of a command's word are the fields the command was encoded from
(spec/30_encoding.md R81, R85). -/

namespace Sys2Proof

/-- The fields of an assembled word, when each fits its place (R81). -/
theorem fieldsOf_wordOf {f : Fields} (hop : f.op < 256) (hrd : f.rd < 16) (hra : f.ra < 16) (hrb : f.rb < 16)
    (hz : f.z < 16) (himm : f.imm < 256) : fieldsOf (wordOf f) = f := by
  obtain ⟨op, rd, ra, rb, z, imm⟩ := f
  simp only at hop hrd hra hrb hz himm
  simp only [fieldsOf, wordOf, BitVec.toNat_ofNat, Fields.mk.injEq]
  refine ⟨?_, ?_, ?_, ?_, ?_, ?_⟩ <;> omega

namespace Laws.FieldsReadBack

/-- The fields read from a command's word are the command's own fields. -/
def Statement (i : Instr) : Prop := fieldsOf (encode i) = instrFields i

theorem nop : Statement .nop := fieldsOf_wordOf (by decide) (by decide) (by decide) (by decide) (by decide) (by decide)
theorem srst : Statement .srst := fieldsOf_wordOf (by decide) (by decide) (by decide) (by decide) (by decide) (by decide)
theorem ldb (rd : Reg) (len : Byte) : Statement (.ldb rd len) :=
  fieldsOf_wordOf (by decide : 0x10 < 256) rd.isLt (by decide : 0 < 16) (by decide : 0 < 16) (by decide : 0 < 16) len.isLt
theorem lds (rd : Reg) : Statement (.lds rd) :=
  fieldsOf_wordOf (by decide : 0x11 < 256) rd.isLt (by decide : 0 < 16) (by decide : 0 < 16) (by decide : 0 < 16) (by decide : 0 < 256)
theorem mov (rd ra : Reg) : Statement (.mov rd ra) :=
  fieldsOf_wordOf (by decide : 0x12 < 256) rd.isLt ra.isLt (by decide : 0 < 16) (by decide : 0 < 16) (by decide : 0 < 256)
theorem stb (ra : Reg) : Statement (.stb ra) :=
  fieldsOf_wordOf (by decide : 0x13 < 256) (by decide : 0 < 16) ra.isLt (by decide : 0 < 16) (by decide : 0 < 16) (by decide : 0 < 256)
theorem cmp (ra rb : Reg) : Statement (.cmp ra rb) :=
  fieldsOf_wordOf (by decide : 0x20 < 256) (by decide : 0 < 16) ra.isLt rb.isLt (by decide : 0 < 16) (by decide : 0 < 256)
theorem adds (rd ra : Reg) : Statement (.adds rd ra) :=
  fieldsOf_wordOf (by decide : 0x21 < 256) rd.isLt ra.isLt (by decide : 0 < 16) (by decide : 0 < 16) (by decide : 0 < 256)
theorem subs (rd ra : Reg) : Statement (.subs rd ra) :=
  fieldsOf_wordOf (by decide : 0x22 < 256) rd.isLt ra.isLt (by decide : 0 < 16) (by decide : 0 < 16) (by decide : 0 < 256)
theorem sub (rd ra : Reg) : Statement (.sub rd ra) :=
  fieldsOf_wordOf (by decide : 0x23 < 256) rd.isLt ra.isLt (by decide : 0 < 16) (by decide : 0 < 16) (by decide : 0 < 256)
theorem shl (rd ra : Reg) (amt : Byte) : Statement (.shl rd ra amt) :=
  fieldsOf_wordOf (by decide : 0x30 < 256) rd.isLt ra.isLt (by decide : 0 < 16) (by decide : 0 < 16) amt.isLt
theorem shr (rd ra : Reg) (amt : Byte) : Statement (.shr rd ra amt) :=
  fieldsOf_wordOf (by decide : 0x31 < 256) rd.isLt ra.isLt (by decide : 0 < 16) (by decide : 0 < 16) amt.isLt
theorem ctz (ra : Reg) : Statement (.ctz ra) :=
  fieldsOf_wordOf (by decide : 0x32 < 256) (by decide : 0 < 16) ra.isLt (by decide : 0 < 16) (by decide : 0 < 16) (by decide : 0 < 256)
theorem setmod (ra : Reg) : Statement (.setmod ra) :=
  fieldsOf_wordOf (by decide : 0x40 < 256) (by decide : 0 < 16) ra.isLt (by decide : 0 < 16) (by decide : 0 < 16) (by decide : 0 < 256)
theorem reduce (rd : Reg) : Statement (.reduce rd) :=
  fieldsOf_wordOf (by decide : 0x41 < 256) rd.isLt (by decide : 0 < 16) (by decide : 0 < 16) (by decide : 0 < 16) (by decide : 0 < 256)
theorem mulmod (rd ra rb : Reg) : Statement (.mulmod rd ra rb) :=
  fieldsOf_wordOf (by decide : 0x42 < 256) rd.isLt ra.isLt rb.isLt (by decide : 0 < 16) (by decide : 0 < 256)
theorem powmod (rd ra rb : Reg) : Statement (.powmod rd ra rb) :=
  fieldsOf_wordOf (by decide : 0x43 < 256) rd.isLt ra.isLt rb.isLt (by decide : 0 < 16) (by decide : 0 < 256)

end Laws.FieldsReadBack

end Sys2Proof
end

