-- ==== Sys2Proof/Laws/Frames.lean ====
section
/-! SUPPORT. What each shared update changes and leaves unchanged, in the terms of Safety.lean; `exec` at each
constructor; the number a command's word is. -/

namespace Sys2Proof

/-- A command's word as a number (spec/30_encoding.md R81). -/
theorem encode_toNat (i : Instr) : (encode i).toNat =
    (instrFields i).op * 2 ^ 24 + (instrFields i).rd * 2 ^ 20 + (instrFields i).ra * 2 ^ 16 +
      (instrFields i).rb * 2 ^ 12 + (instrFields i).imm := by
  cases i <;> simp only [encode, wordOf, instrFields, BitVec.toNat_ofNat] <;> omega

/-- The digits of a 32-bit number are the number (spec/30_encoding.md R81). -/
theorem digits_sum (n : Nat) (h : n < 2 ^ 32) :
    (n / 2 ^ 24 * 2 ^ 24 + n / 2 ^ 20 % 16 * 2 ^ 20 + n / 2 ^ 16 % 16 * 2 ^ 16 + n / 2 ^ 12 % 16 * 2 ^ 12 +
      n / 2 ^ 8 % 16 * 2 ^ 8 + n % 256) % 2 ^ 32 = n := by omega

/-- Assembling the fields of a word gives the word back (spec/30_encoding.md R81). -/
theorem wordOf_fieldsOf (w : Word32) : wordOf (fieldsOf w) = w := by
  apply BitVec.eq_of_toNat_eq
  simp only [wordOf, fieldsOf, BitVec.toNat_ofNat]
  exact digits_sum _ w.isLt

/-- A register field read back is the register. -/
@[simp] theorem regField_val (r : Reg) : regField r.val = r :=
  Fin.ext (by simp [regField, Fin.ofNat, Nat.mod_eq_of_lt r.isLt])

/-- An immediate field read back is the immediate. -/
@[simp] theorem immField_toNat (b : Byte) : immField b.toNat = b := by simp [immField]

namespace Machine

/-- Fault entry is the fault and nothing else (spec/60_exceptions.md R196). -/
theorem tookFault_raise (c : Cause) (cw : Word32) (s : State) : TookFault c cw s (raise c cw s) :=
  ⟨rfl, rfl, rfl, fun _ _ => rfl, fun _ => rfl, rfl, rfl, ⟨rfl, rfl⟩, ⟨rfl, rfl, rfl⟩, ⟨rfl, rfl, rfl⟩⟩

/-- Writing a wide register changes that register alone. -/
theorem onlyReg_setReg (rd : Reg) (v : Wide) (s : State) : OnlyReg rd s (s.setReg rd v) :=
  ⟨fun _ h => reg_setReg_other s rd v h, fun _ => rfl, rfl, rfl, ⟨rfl, rfl⟩, ⟨rfl, rfl, rfl⟩, ⟨rfl, rfl, rfl⟩,
    ⟨rfl, rfl, rfl⟩⟩

/-- Writing the operand buffer changes the buffer alone. -/
theorem onlyBuf_update (s : State) (m : Memory) : OnlyBuf s { s with block := { s.block with buf := m } } :=
  ⟨fun _ _ => rfl, rfl, rfl, ⟨rfl, rfl⟩, ⟨rfl, rfl, rfl⟩, ⟨rfl, rfl, rfl⟩, ⟨rfl, rfl, rfl⟩⟩

/-- Writing the flags changes the flags alone. -/
theorem onlyFlags_update (s : State) (lt eq : Bool) :
    OnlyFlags s { s with block := { s.block with lt := lt, eq := eq } } :=
  ⟨fun _ _ => rfl, fun _ => rfl, rfl, rfl, ⟨rfl, rfl, rfl⟩, ⟨rfl, rfl, rfl⟩, ⟨rfl, rfl, rfl⟩⟩

/-- Writing `TZC` changes `TZC` alone. -/
theorem onlyTzc_update (s : State) (v : Word32) : OnlyTzc s { s with block := { s.block with tzc := v } } :=
  ⟨fun _ _ => rfl, fun _ => rfl, rfl, ⟨rfl, rfl⟩, ⟨rfl, rfl, rfl⟩, ⟨rfl, rfl, rfl⟩, ⟨rfl, rfl, rfl⟩⟩

/-- Writing the context changes the context alone. -/
theorem onlyContext_update (s : State) (n : ModWord) (mt : List Wide) :
    OnlyContext s { s with block := { s.block with modn := n, mt := mt, mv := true } } :=
  ⟨fun _ _ => rfl, fun _ => rfl, rfl, rfl, ⟨rfl, rfl⟩, ⟨rfl, rfl, rfl⟩, ⟨rfl, rfl, rfl⟩⟩

section exec
variable (rd ra rb : Reg) (imm : Byte) (s : State)

@[simp] theorem exec_nop : exec .nop s = execNop s := rfl
@[simp] theorem exec_srst : exec .srst s = execSrst s := rfl
@[simp] theorem exec_ldb : exec (.ldb rd imm) s = execLdb rd imm s := rfl
@[simp] theorem exec_lds : exec (.lds rd) s = execLds rd s := rfl
@[simp] theorem exec_mov : exec (.mov rd ra) s = execMov rd ra s := rfl
@[simp] theorem exec_stb : exec (.stb ra) s = execStb ra s := rfl
@[simp] theorem exec_cmp : exec (.cmp ra rb) s = execCmp ra rb s := rfl
@[simp] theorem exec_adds : exec (.adds rd ra) s = execAdds rd ra s := rfl
@[simp] theorem exec_subs : exec (.subs rd ra) s = execSubs rd ra s := rfl
@[simp] theorem exec_sub : exec (.sub rd ra) s = execSub rd ra s := rfl
@[simp] theorem exec_shl : exec (.shl rd ra imm) s = execShl rd ra imm s := rfl
@[simp] theorem exec_shr : exec (.shr rd ra imm) s = execShr rd ra imm s := rfl
@[simp] theorem exec_ctz : exec (.ctz ra) s = execCtz ra s := rfl
@[simp] theorem exec_setmod : exec (.setmod ra) s = execSetmod ra s := rfl
@[simp] theorem exec_reduce : exec (.reduce rd) s = execReduce rd s := rfl
@[simp] theorem exec_mulmod : exec (.mulmod rd ra rb) s = execMulmod rd ra rb s := rfl
@[simp] theorem exec_powmod : exec (.powmod rd ra rb) s = execPowmod rd ra rb s := rfl

end exec

end Machine

end Sys2Proof
end

