-- ==== Sys2Proof/Laws/Exec.lean ====
section
/-! SUPPORT. Said once, what a command can do: `exec` inverted. -/

namespace Sys2Proof.Machine

/-- A mapped result is a result, mapped. -/
theorem map_ok {α : Type} {e : Except Cause α} {f : α → State} {t : State} (h : e.map f = .ok t) :
    ∃ a, e = .ok a ∧ t = f a := by
  cases e with
  | ok a => exact ⟨a, rfl, by simpa [Except.map] using h.symm⟩
  | error c => simp [Except.map] at h

/-- A mapped error is the error. -/
theorem map_error {α : Type} {e : Except Cause α} {f : α → State} {c : Cause} (h : e.map f = .error c) :
    e = .error c := by
  cases e with
  | ok a => simp [Except.map] at h
  | error d => simpa [Except.map] using h

set_option exponentiation.threshold 1024 in
/-- What a command can do: take one of its faults, reset, nothing, write its destination register, or one of the four
other updates (spec/30_encoding.md R80). -/
theorem exec_cases (i : Instr) (s t : State) (h : exec i s = .next t) :
    (∃ c, c ∈ causesOf i ∧ t = raise c (encode i) s) ∨
    (i = .srst ∧ t = resetBlock s) ∨
    (i = .nop ∧ t = s) ∨
    (∃ rd v, destination i = some rd ∧ t = s.setReg rd v) ∨
    (∃ ra, i = .stb ra ∧
      t = { s with block := { s.block with buf := storeImage (s.reg ra) Config.bufBytes s.block.buf } }) ∨
    (∃ ra rb, i = .cmp ra rb ∧ t = { s with
      block := { s.block with lt := compareLt (s.reg ra) (s.reg rb), eq := compareEq (s.reg ra) (s.reg rb) } }) ∨
    (∃ ra, i = .ctz ra ∧ (s.reg ra).toNat ≠ 0 ∧ t = { s with
      block := { s.block with tzc := BitVec.ofNat 32 (trailingZeros 1024 (s.reg ra).toNat) } }) ∨
    (∃ ra, i = .setmod ra ∧ (s.reg ra).toNat ≠ 0 ∧ (s.reg ra).toNat < 2 ^ 512 ∧ t = { s with
      block := { s.block with
        modn := BitVec.ofNat 512 (s.reg ra).toNat, mt := shiftedTable (s.reg ra).toNat, mv := true } }) := by
  cases i with
  | nop =>
    rw [exec_nop, execNop] at h
    rcases complete_next h with h | ⟨c, h, -⟩ <;> cases h; simp
  | srst =>
    rw [exec_srst, execSrst] at h
    rcases complete_next h with h | ⟨c, h, -⟩ <;> cases h; simp
  | ldb rd len =>
    rw [exec_ldb, execLdb] at h
    rcases complete_next h with h | ⟨c, h, ht⟩
    · split at h
      · cases h
      · split at h
        · cases h
        · injection h with h; exact .inr (.inr (.inr (.inl ⟨_, _, rfl, h.symm⟩)))
    · left; refine ⟨c, ?_, ht⟩
      split at h
      · cases h; simp [causesOf]
      · split at h <;> cases h; simp [causesOf]
  | lds rd =>
    rw [exec_lds, execLds] at h
    rcases complete_next h with h | ⟨c, h, -⟩ <;> cases h; exact .inr (.inr (.inr (.inl ⟨_, _, rfl, rfl⟩)))
  | mov rd ra =>
    rw [exec_mov, execMov] at h
    rcases complete_next h with h | ⟨c, h, -⟩ <;> cases h; exact .inr (.inr (.inr (.inl ⟨_, _, rfl, rfl⟩)))
  | stb ra =>
    rw [exec_stb, execStb] at h
    rcases complete_next h with h | ⟨c, h, -⟩
    · injection h with h; exact .inr (.inr (.inr (.inr (.inl ⟨ra, rfl, h.symm⟩))))
    · cases h
  | cmp ra rb =>
    rw [exec_cmp, execCmp] at h
    rcases complete_next h with h | ⟨c, h, -⟩
    · injection h with h; exact .inr (.inr (.inr (.inr (.inr (.inl ⟨_, _, rfl, h.symm⟩)))))
    · cases h
  | adds rd ra =>
    rw [exec_adds, execAdds] at h
    rcases complete_next h with h | ⟨c, h, ht⟩
    · obtain ⟨a, -, h⟩ := map_ok h; exact .inr (.inr (.inr (.inl ⟨_, _, rfl, h⟩)))
    · left; refine ⟨c, ?_, ht⟩; have h := map_error h; unfold addScalar at h; split at h <;> cases h; simp [causesOf]
  | subs rd ra =>
    rw [exec_subs, execSubs] at h
    rcases complete_next h with h | ⟨c, h, ht⟩
    · obtain ⟨a, -, h⟩ := map_ok h; exact .inr (.inr (.inr (.inl ⟨_, _, rfl, h⟩)))
    · left; refine ⟨c, ?_, ht⟩; have h := map_error h; unfold subExact at h; split at h <;> cases h; simp [causesOf]
  | sub rd ra =>
    rw [exec_sub, execSub] at h
    rcases complete_next h with h | ⟨c, h, ht⟩
    · obtain ⟨a, -, h⟩ := map_ok h; exact .inr (.inr (.inr (.inl ⟨_, _, rfl, h⟩)))
    · left; refine ⟨c, ?_, ht⟩; have h := map_error h; unfold subExact at h; split at h <;> cases h; simp [causesOf]
  | shl rd ra amt =>
    rw [exec_shl, execShl] at h
    rcases complete_next h with h | ⟨c, h, ht⟩
    · split at h
      · cases h
      · injection h with h; exact .inr (.inr (.inr (.inl ⟨_, _, rfl, h.symm⟩)))
    · left; refine ⟨c, ?_, ht⟩
      split at h <;> cases h; simp [causesOf]
  | shr rd ra amt =>
    rw [exec_shr, execShr] at h
    rcases complete_next h with h | ⟨c, h, ht⟩
    · split at h
      · cases h
      · injection h with h; exact .inr (.inr (.inr (.inl ⟨_, _, rfl, h.symm⟩)))
    · left; refine ⟨c, ?_, ht⟩
      split at h <;> cases h; simp [causesOf]
  | ctz ra =>
    rw [exec_ctz, execCtz] at h
    rcases complete_next h with h | ⟨c, h, ht⟩
    · split at h
      · cases h
      · injection h with h; exact .inr (.inr (.inr (.inr (.inr (.inr (.inl ⟨_, rfl, by assumption, h.symm⟩))))))
    · left; refine ⟨c, ?_, ht⟩
      split at h <;> cases h; simp [causesOf]
  | setmod ra =>
    rw [exec_setmod, execSetmod] at h
    rcases complete_next h with h | ⟨c, h, ht⟩
    · split at h
      · cases h
      · rename_i hn
        injection h with h; exact .inr (.inr (.inr (.inr (.inr (.inr (.inr ⟨_, rfl, fun e => hn (.inl e), Nat.not_le.mp fun e => hn (.inr e), h.symm⟩))))))
    · left; refine ⟨c, ?_, ht⟩
      split at h <;> cases h; simp [causesOf]
  | reduce rd =>
    rw [exec_reduce, execReduce] at h
    rcases complete_next h with h | ⟨c, h, ht⟩
    · split at h
      · cases h
      · injection h with h; exact .inr (.inr (.inr (.inl ⟨_, _, rfl, h.symm⟩)))
    · left; refine ⟨c, ?_, ht⟩
      split at h <;> cases h; simp [causesOf]
  | mulmod rd ra rb =>
    rw [exec_mulmod, execMulmod] at h
    rcases complete_next h with h | ⟨c, h, ht⟩
    · split at h
      · cases h
      · obtain ⟨a, -, h⟩ := map_ok h; exact .inr (.inr (.inr (.inl ⟨_, _, rfl, h⟩)))
    · left; refine ⟨c, ?_, ht⟩
      split at h
      · cases h; simp [causesOf]
      · have h := map_error h; unfold mulmodBy at h
        split at h
        · cases h; simp [causesOf]
        · split at h <;> cases h; simp [causesOf]
  | powmod rd ra rb =>
    rw [exec_powmod, execPowmod] at h
    rcases complete_next h with h | ⟨c, h, ht⟩
    · split at h
      · cases h
      · obtain ⟨a, -, h⟩ := map_ok h; exact .inr (.inr (.inr (.inl ⟨_, _, rfl, h⟩)))
    · left; refine ⟨c, ?_, ht⟩
      split at h
      · cases h; simp [causesOf]
      · rw [powmodLoop_error (map_error h)]; simp [causesOf]

end Sys2Proof.Machine
end

