-- ==== Sys2Proof/Laws/Memory.lean ====
section
/-! SUPPORT. The laws of the operand buffer: a read after a write, and that every operation on it keeps the canonical
form. -/

namespace Sys2Proof.Machine

@[simp] theorem read_nil (k : Nat) : Memory.read [] k = Memory.unlisted := rfl

@[simp] theorem wf_nil : Memory.wf [] = true := rfl

/-- The parts of the canonical form of a listed byte. -/
theorem wfFrom_cons {lo a : Nat} {b : Byte} {m : Memory} :
    Memory.wfFrom lo ((a, b) :: m) = true ↔
      lo ≤ a ∧ a < Config.bufBytes ∧ b ≠ Memory.unlisted ∧ Memory.wfFrom (a + 1) m = true := by
  simp [Memory.wfFrom, and_assoc]

theorem wfFrom_mono {lo lo' : Nat} (h : lo' ≤ lo) {m : Memory} (hm : Memory.wfFrom lo m = true) :
    Memory.wfFrom lo' m = true := by
  cases m with
  | nil => rfl
  | cons p m =>
    obtain ⟨a, b⟩ := p
    rw [wfFrom_cons] at hm ⊢
    exact ⟨by omega, hm.2⟩

/-- An index below the canonical form's bound is not listed. -/
theorem read_below {lo k : Nat} (h : k < lo) {m : Memory} (hm : Memory.wfFrom lo m = true) :
    Memory.read m k = Memory.unlisted := by
  induction m generalizing lo with
  | nil => rfl
  | cons p m ih =>
    obtain ⟨a, b⟩ := p
    rw [wfFrom_cons] at hm
    have : a ≠ k := by omega
    simpa [Memory.read, this] using ih (lo := a + 1) (by omega) hm.2.2.2

/-- A write leaves every other byte alone, in any list. -/
theorem read_write_other {j k : Nat} (h : j ≠ k) (b : Byte) (m : Memory) :
    Memory.read (Memory.write m k b) j = Memory.read m j := by
  induction m with
  | nil => by_cases hb : b = Memory.unlisted <;> simp [Memory.write, Memory.read, hb, Ne.symm h]
  | cons p m ih =>
    obtain ⟨a, c⟩ := p
    by_cases h1 : k < a
    · by_cases hb : b = Memory.unlisted <;> simp [Memory.write, Memory.read, h1, hb, Ne.symm h]
    · by_cases h2 : k = a
      · subst h2
        by_cases hb : b = Memory.unlisted <;> simp [Memory.write, Memory.read, hb, Ne.symm h]
      · simp [Memory.write, Memory.read, h1, h2, ih]

/-- A read after a write to the same byte gives the value written. -/
theorem read_write_same_from {lo : Nat} (k : Nat) (b : Byte) {m : Memory} (hm : Memory.wfFrom lo m = true) :
    Memory.read (Memory.write m k b) k = b := by
  induction m generalizing lo with
  | nil => by_cases hb : b = Memory.unlisted <;> simp [Memory.write, Memory.read, hb]
  | cons p m ih =>
    obtain ⟨a, c⟩ := p
    rw [wfFrom_cons] at hm
    by_cases h1 : k < a
    · by_cases hb : b = Memory.unlisted
      · have h3 : a ≠ k := by omega
        simp [Memory.write, Memory.read, h1, hb, h3, read_below (show k < a + 1 by omega) hm.2.2.2]
      · simp [Memory.write, Memory.read, h1, hb]
    · by_cases h2 : k = a
      · subst h2
        by_cases hb : b = Memory.unlisted
        · simp [Memory.write, hb, read_below (Nat.lt_succ_self k) hm.2.2.2]
        · simp [Memory.write, Memory.read, hb]
      · simp [Memory.write, Memory.read, h1, h2, Ne.symm h2, ih hm.2.2.2]

theorem read_write_same (k : Nat) (b : Byte) {m : Memory} (hm : Memory.wf m = true) :
    Memory.read (Memory.write m k b) k = b := read_write_same_from k b hm

theorem wfFrom_write {lo k : Nat} (hlo : lo ≤ k) (hk : k < Config.bufBytes) (b : Byte) {m : Memory}
    (hm : Memory.wfFrom lo m = true) : Memory.wfFrom lo (Memory.write m k b) = true := by
  induction m generalizing lo with
  | nil =>
    by_cases hb : b = Memory.unlisted
    · simp [Memory.write, hb, Memory.wfFrom]
    · rw [Memory.write, if_neg hb, wfFrom_cons]; exact ⟨hlo, hk, hb, rfl⟩
  | cons p m ih =>
    obtain ⟨a, c⟩ := p
    have hm' := hm
    rw [wfFrom_cons] at hm'
    by_cases h1 : k < a
    · by_cases hb : b = Memory.unlisted
      · simpa [Memory.write, h1, hb] using hm
      · rw [Memory.write, if_pos h1, if_neg hb, wfFrom_cons]
        exact ⟨hlo, hk, hb, by rw [wfFrom_cons]; exact ⟨by omega, hm'.2⟩⟩
    · by_cases h2 : k = a
      · subst h2
        by_cases hb : b = Memory.unlisted
        · simpa [Memory.write, hb] using wfFrom_mono (by omega) hm'.2.2.2
        · rw [Memory.write, if_neg h1, if_pos rfl, if_neg hb, wfFrom_cons]
          exact ⟨hlo, hk, hb, hm'.2.2.2⟩
      · rw [Memory.write, if_neg h1, if_neg h2, wfFrom_cons]
        exact ⟨hm'.1, hm'.2.1, hm'.2.2.1, ih (by omega) hm'.2.2.2⟩

/-- Writing a byte of the buffer keeps the canonical form. -/
theorem wf_write {k : Nat} (hk : k < Config.bufBytes) (b : Byte) {m : Memory} (hm : Memory.wf m = true) :
    Memory.wf (Memory.write m k b) = true := wfFrom_write (Nat.zero_le k) hk b hm

/-- STB's byte image keeps the canonical form. -/
theorem wf_storeImage (v : Wide) {n : Nat} (hn : n ≤ Config.bufBytes) {m : Memory} (hm : Memory.wf m = true) :
    Memory.wf (storeImage v n m) = true := by
  induction n with
  | zero => exact hm
  | succ n ih => exact wf_write (by omega) _ (ih (by omega))

/-- A 4-byte write to the buffer keeps the canonical form. -/
theorem wf_storeBufWord {k : Nat} (hk : k + 3 < Config.bufBytes) (v : Word32) {m : Memory}
    (hm : Memory.wf m = true) : Memory.wf (storeBufWord m k v) = true :=
  wf_write hk _ (wf_write (by omega) _ (wf_write (by omega) _ (wf_write (by omega) _ hm)))

/-- What STB's byte image leaves at each index: the image byte where it was stored, else the byte before. -/
theorem read_storeImage (v : Wide) {n : Nat} (hn : n ≤ Config.bufBytes) {m : Memory} (hm : Memory.wf m = true)
    (k : Nat) : Memory.read (storeImage v n m) k = if k < n then imageByte v k else Memory.read m k := by
  induction n with
  | zero => simp [storeImage]
  | succ n ih =>
    rw [storeImage]
    by_cases h : k = n
    · subst h
      rw [read_write_same k _ (wf_storeImage v (by omega) hm), if_pos (by omega)]
    · rw [read_write_other h, ih (by omega)]
      by_cases h2 : k < n
      · rw [if_pos h2, if_pos (by omega)]
      · rw [if_neg h2, if_neg (by omega)]

end Sys2Proof.Machine
end

