-- ==== Sys2Proof/Laws/Values.lean ====
section
/-! SUPPORT. What the value computations of the commands give, as numbers: the big-endian load, the scan for zero bits, a
table entry, and the 4-byte views of the buffer. -/

namespace Sys2Proof.Machine

/-- The value of `n` bytes is below `256^n` (spec/40_construct_move.md R110). -/
theorem loadBytes_lt (m : Memory) (n : Nat) : loadBytes m n < 256 ^ n := by
  induction n with
  | zero => exact Nat.one_pos
  | succ n ih =>
    have := (Memory.read m n).isLt
    rw [loadBytes, Nat.pow_succ]
    omega

/-- The load looks only at the bytes it covers (spec/40_construct_move.md R110). -/
theorem loadBytes_congr {m m' : Memory} {n : Nat} (h : ∀ k, k < n → Memory.read m k = Memory.read m' k) :
    loadBytes m n = loadBytes m' n := by
  induction n with
  | zero => rfl
  | succ n ih => rw [loadBytes, loadBytes, ih fun k hk => h k (by omega), h n (by omega)]

/-- The scan finds the lowest set bit (spec/42_shift_scan.md R132). -/
theorem trailingZeros_spec (fuel v : Nat) (hv : v ≠ 0) (hf : v < 2 ^ fuel) :
    (∃ d, v = 2 ^ trailingZeros fuel v * (2 * d + 1)) ∧ trailingZeros fuel v < fuel := by
  induction fuel generalizing v with
  | zero => omega
  | succ n ih =>
    unfold trailingZeros
    split
    · exact ⟨⟨v / 2, by omega⟩, by omega⟩
    · rw [Nat.pow_succ] at hf
      obtain ⟨⟨d, hd⟩, hn⟩ := ih (v / 2) (by omega) (by omega)
      refine ⟨⟨d, ?_⟩, by omega⟩
      rw [Nat.pow_succ, Nat.mul_right_comm, ← hd]
      omega

set_option exponentiation.threshold 1024 in
/-- A table entry is the shifted modulus, with no bit lost (spec/43_modulus_context.md R140). -/
theorem tableEntry_toNat {n i : Nat} (hn : n < 2 ^ 512) : (tableEntry n i).toNat = n * 2 ^ (512 - i) := by
  rw [tableEntry, BitVec.toNat_ofNat]
  apply Nat.mod_eq_of_lt
  calc n * 2 ^ (512 - i) < 2 ^ 512 * 2 ^ (512 - i) := Nat.mul_lt_mul_of_pos_right hn (Nat.two_pow_pos _)
    _ = 2 ^ (512 + (512 - i)) := (Nat.pow_add 2 512 (512 - i)).symm
    _ ≤ 2 ^ 1024 := Nat.pow_le_pow_right (by decide) (by omega)

/-- The table, entry by entry (spec/43_modulus_context.md R140). -/
theorem shiftedTable_getElem? {n i : Nat} (hi : i ≤ 512) : (shiftedTable n)[i]? = some (tableEntry n i) := by
  rw [shiftedTable, List.getElem?_map, List.getElem?_range (by simp only [Config.tableEntries]; omega), Option.map_some]

/-- The table has its 513 entries (spec/10_state.md R30). -/
@[simp] theorem shiftedTable_length (n : Nat) : (shiftedTable n).length = 513 := by
  rw [shiftedTable, List.length_map, List.length_range]

/-- What a 4-byte write leaves at each index of the buffer (spec/20_memory.md R53). -/
theorem read_storeBufWord {k : Nat} (hk : k + 3 < Config.bufBytes) (v : Word32) {m : Memory}
    (hm : Memory.wf m = true) (j : Nat) :
    Memory.read (storeBufWord m k v) j =
      if j = k + 3 then v.extractLsb' 0 8 else if j = k + 2 then v.extractLsb' 8 8
      else if j = k + 1 then v.extractLsb' 16 8 else if j = k then v.extractLsb' 24 8 else Memory.read m j := by
  have h1 := wf_write (by omega : k < Config.bufBytes) (v.extractLsb' 24 8) hm
  have h2 := wf_write (by omega : k + 1 < Config.bufBytes) (v.extractLsb' 16 8) h1
  have h3 := wf_write (by omega : k + 2 < Config.bufBytes) (v.extractLsb' 8 8) h2
  unfold storeBufWord
  split
  · subst j; exact read_write_same _ _ h3
  · rw [read_write_other ‹_›]
    split
    · subst j; exact read_write_same _ _ h2
    · rw [read_write_other ‹_›]
      split
      · subst j; exact read_write_same _ _ h1
      · rw [read_write_other ‹_›]
        split
        · subst j; exact read_write_same _ _ hm
        · exact read_write_other ‹_› _ _

end Sys2Proof.Machine
end

