-- ==== Sys2Proof/Tests/Slice0.lean ====
section
/-! SUPPORT. The model's own tests: the ill-formed term, one hand-written word per constructor, at most two tests of one
step per instruction with results taken from spec/95_test_vectors.md (the vector's id stands in the comment), the host's
accesses, and a concrete state for the hypotheses of each statement. -/

namespace Sys2Proof.Tests

open Sys2Proof.Machine

set_option Elab.async false
set_option exponentiation.threshold 1024

/-! ## Well-formedness -/

theorem test_wf_refuses_ldb_longer_than_the_buffer : Instr.wf (.ldb 3 129) = false := by decide

theorem test_wf_accepts_ldb_of_the_whole_buffer : Instr.wf (.ldb 3 128) = true := by decide

/-! ## Decoding: words written out from the encodings of R83 (op, rd, ra, rb, z, imm) -/

theorem test_decode_nop : decode 0b00000000_0000_0000_0000_0000_00000000#32 = .ok .nop := by decide
theorem test_decode_srst : decode 0b00000001_0000_0000_0000_0000_00000000#32 = .ok .srst := by decide
theorem test_decode_ldb : decode 0b00010000_1111_0000_0000_0000_01000000#32 = .ok (.ldb 15 64) := by decide
theorem test_decode_lds : decode 0b00010001_0010_0000_0000_0000_00000000#32 = .ok (.lds 2) := by decide
theorem test_decode_mov : decode 0b00010010_0010_0001_0000_0000_00000000#32 = .ok (.mov 2 1) := by decide
theorem test_decode_stb : decode 0b00010011_0000_0011_0000_0000_00000000#32 = .ok (.stb 3) := by decide
theorem test_decode_cmp : decode 0b00100000_0000_0011_0001_0000_00000000#32 = .ok (.cmp 3 1) := by decide
theorem test_decode_adds : decode 0b00100001_0101_0100_0000_0000_00000000#32 = .ok (.adds 5 4) := by decide
theorem test_decode_subs : decode 0b00100010_0001_0000_0000_0000_00000000#32 = .ok (.subs 1 0) := by decide
theorem test_decode_sub : decode 0b00100011_0001_0011_0000_0000_00000000#32 = .ok (.sub 1 3) := by decide
theorem test_decode_shl : decode 0b00110000_0001_0000_0000_0000_00000011#32 = .ok (.shl 1 0 3) := by decide
theorem test_decode_shr : decode 0b00110001_0010_0001_0000_0000_00000010#32 = .ok (.shr 2 1 2) := by decide
theorem test_decode_ctz : decode 0b00110010_0000_0001_0000_0000_00000000#32 = .ok (.ctz 1) := by decide
theorem test_decode_setmod : decode 0b01000000_0000_1001_0000_0000_00000000#32 = .ok (.setmod 9) := by decide
theorem test_decode_reduce : decode 0b01000001_0001_0000_0000_0000_00000000#32 = .ok (.reduce 1) := by decide
theorem test_decode_mulmod : decode 0b01000010_0101_0011_0100_0000_00000000#32 = .ok (.mulmod 5 3 4) := by decide
theorem test_decode_powmod : decode 0b01000011_0011_0001_0010_0000_00000000#32 = .ok (.powmod 3 1 2) := by decide

/-- V-IL5. -/
theorem test_decode_refuses_unassigned_opcodes :
    [0x02000000#32, 0x0F000000#32, 0x14000000#32, 0x24000000#32, 0x33000000#32, 0x44000000#32, 0xFF000000#32].all
      (fun w => decide (decode w = .error .unknownOpcode)) = true := by decide

/-- V-IL3, V-IL11. -/
theorem test_decode_refuses_z :
    decode 0x00000100#32 = .error .zNotZero ∧ decode 0x30100103#32 = .error .zNotZero := by decide

/-- V-LB7, V-IL1, V-IL2, V-IL4, V-IL6 to V-IL10, V-IL12 to V-IL15. -/
theorem test_decode_refuses_unused_fields :
    [0x10310040#32, 0x00000001#32, 0x00100000#32, 0x01000001#32, 0x11210000#32, 0x12210001#32, 0x13130000#32,
      0x20131000#32, 0x21541000#32, 0x32110000#32, 0x40100000#32, 0x41100001#32, 0x42333001#32].all
      (fun w => decide (decode w = .error .unusedFieldNotZero)) = true := by decide

/-- V-LB6, V-IL16, V-IL17. -/
theorem test_decode_length_of_ldb :
    decode 0x10000080#32 = .ok (.ldb 0 128) ∧ decode 0x10300081#32 = .error .ldbTooLong ∧
      decode 0x100000FF#32 = .error .ldbTooLong := by decide

/-- The rows of R83 carry the mnemonics of spec/opcode_table.json and no two of them take the same word. -/
theorem test_rows_do_not_overlap :
    ([Instr.nop, .srst, .ldb 0 0, .lds 0, .mov 0 0, .stb 0, .cmp 0 0, .adds 0 0, .subs 0 0, .sub 0 0, .shl 0 0 0,
      .shr 0 0 0, .ctz 0, .setmod 0, .reduce 0, .mulmod 0 0 0, .powmod 0 0 0].map opcodeRow).Pairwise
      (fun a b => a.pattern &&& (a.mask &&& b.mask) ≠ b.pattern &&& (a.mask &&& b.mask)) := by decide

theorem test_decodeTableWord : decodeTableWord 32 0x10F00040 = some (.ldb 15 64) := by decide

/-! ## Helpers: small states from reset, and one step that issues a command word -/

/-- Reset, with the given wide registers set. -/
def withRegs (l : List (Reg × Nat)) : State :=
  l.foldl (fun s p => s.setReg p.1 (BitVec.ofNat 1024 p.2)) State.reset

/-- A state with the scalar set. -/
def withScl (v : Word32) (s : State) : State := { s with block := { s.block with scl := v } }

/-- A state with the modulus context of `n`. -/
def withContext (n : Nat) (s : State) : State :=
  { s with block := { s.block with
      mv := true, modn := BitVec.ofNat 512 n, mt := shiftedTable (BitVec.ofNat 512 n).toNat } }

/-- A state with bytes of the buffer set. -/
def withBuf (l : List (Nat × Byte)) (s : State) : State :=
  { s with block := { s.block with buf := l.foldl (fun m p => Memory.write m p.1 p.2) s.block.buf } }

/-- A state in which a fault is recorded. -/
def faulted (s : State) : State := raise .ctzZero 0x32010000#32 s

/-- A state whose next host action is the given one. -/
def next (a : HostAction) (s : State) : State := { s with pending := [a] }

/-- The step that issues a word answers a state with this property. -/
def after (w : Word32) (s : State) (p : State → Bool) : Bool :=
  match step (next (commandWrite w) s) with
  | .next t => p t
  | .fault _ => false
  | .refused _ => false

/-- The step that performs a host action answers a state with this property. -/
def afterAction (a : HostAction) (s : State) (p : State → Bool) : Bool :=
  match step (next a s) with
  | .next t => p t
  | .fault _ => false
  | .refused _ => false

/-- A register holds a value and `STATUS` reads as given. -/
def holds (r : Reg) (v : Nat) (status : Word32) (t : State) : Bool :=
  decide ((t.reg r).toNat = v) && decide (statusWord t.block = status)

/-! ## One step per instruction (spec/95_test_vectors.md) -/

/-- V-SY1. -/
theorem test_nop : after 0x00000000#32 (withRegs [(1, 5)]) (holds 1 5 0) = true := by decide +kernel

/-- V-SY2 and V-PR5: SRST, and SRST in the fault state. -/
theorem test_srst : after 0x01000000#32 (withRegs [(1, 5)]) (holds 1 0 0) = true ∧
    after 0x01000000#32 (faulted (withRegs [(1, 5)])) (holds 1 0 0) = true := by decide +kernel

/-- V-LB1. -/
theorem test_ldb : after 0x10000002#32 (withBuf [(0, 0x01), (1, 0x55)] State.reset) (holds 0 341 0) = true := by
  decide +kernel

/-- V-LB3: the value `2^512` is too wide. -/
theorem test_ldb_too_wide : after 0x10100041#32 (withBuf [(0, 0x01)] State.reset) (fun t =>
    holds 1 0 0x11 t && decide (t.block.errInfo = 0x10100041#32)) = true := by decide +kernel

/-- V-LS1. -/
theorem test_lds : after 0x11200000#32 (withScl 0xFFFFFFFF#32 (withRegs [(2, 2 ^ 600)])) (holds 2 4294967295 0) = true := by
  decide +kernel

/-- V-MV1. -/
theorem test_mov : after 0x12210000#32 (withRegs [(1, 2 ^ 1000 * 2 ^ 23 + 5)]) (fun t =>
    holds 2 (2 ^ 1000 * 2 ^ 23 + 5) 0 t && holds 1 (2 ^ 1000 * 2 ^ 23 + 5) 0 t) = true := by decide +kernel

/-- V-ST1. -/
theorem test_stb : after 0x13030000#32 (withRegs [(3, 0x0102030405)]) (fun t =>
    t.block.buf == [(123, 0x01#8), (124, 0x02#8), (125, 0x03#8), (126, 0x04#8), (127, 0x05#8)]) = true := by
  decide +kernel

/-- V-ST2: the most-significant byte is `BUF[0]`. -/
theorem test_stb_top : after 0x13030000#32 (withRegs [(3, 2 ^ 1000 * 2 ^ 23 + 1)]) (fun t =>
    t.block.buf == [(0, 0x80#8), (127, 0x01#8)]) = true := by decide +kernel

/-- V-CP1. -/
theorem test_cmp_less : after 0x20031000#32 (withRegs [(3, 32), (1, 340)]) (holds 3 32 0x4) = true := by decide +kernel

/-- V-CP5: the headroom takes part. -/
theorem test_cmp_headroom : after 0x20031000#32 (withRegs [(3, 2 ^ 512), (1, 2 ^ 512 - 1)]) (holds 1 (2 ^ 512 - 1) 0) = true := by
  decide +kernel

/-- V-AD3: a carry into the headroom. -/
theorem test_adds : after 0x21540000#32 (withScl 1 (withRegs [(4, 2 ^ 512 - 1)])) (holds 5 (2 ^ 512) 0) = true := by
  decide +kernel

/-- V-AD5. -/
theorem test_adds_overflow : after 0x21540000#32 (withScl 1 (withRegs [(4, 2 ^ 1024 - 1)])) (fun t =>
    holds 5 0 0x21 t && decide (t.block.errInfo = 0x21540000#32)) = true := by decide +kernel

/-- V-SS5: a borrow through 16 limbs. -/
theorem test_subs : after 0x22100000#32 (withScl 1 (withRegs [(0, 2 ^ 512)])) (holds 1 (2 ^ 512 - 1) 0) = true := by
  decide +kernel

/-- V-SS7. -/
theorem test_subs_underflow : after 0x22100000#32 (withScl 5 (withRegs [(0, 4), (1, 99)])) (holds 1 99 0x31) = true := by
  decide +kernel

/-- V-SB1. -/
theorem test_sub : after 0x23130000#32 (withRegs [(1, 340), (3, 32)]) (holds 1 308 0) = true := by decide +kernel

/-- V-SB3. -/
theorem test_sub_underflow : after 0x23130000#32 (withRegs [(1, 31), (3, 32)]) (holds 1 31 0x31) = true := by
  decide +kernel

/-- V-SL5: bits cross the limb boundary. -/
theorem test_shl : after 0x3010001F#32 (withRegs [(0, 0x80000001)]) (holds 1 0x4000000080000000 0) = true := by
  decide +kernel

/-- V-SL9. -/
theorem test_shl_range : after 0x30100020#32 (withRegs [(0, 5), (1, 99)]) (holds 1 99 0x41) = true := by decide +kernel

/-- V-SR7. -/
theorem test_shr : after 0x3121001F#32 (withRegs [(1, 0xFFFFFFFF00000000)]) (holds 2 0x1FFFFFFFE 0) = true := by
  decide +kernel

/-- V-SR8. -/
theorem test_shr_range : after 0x31210020#32 (withRegs [(1, 340), (2, 99)]) (holds 2 99 0x41) = true := by
  decide +kernel

/-- V-CZ6. -/
theorem test_ctz : after 0x32010000#32 (withRegs [(1, 3 * 2 ^ 100)]) (fun t => decide (t.block.tzc = 100#32)) = true := by
  decide +kernel

/-- V-CZ7. -/
theorem test_ctz_zero : after 0x32010000#32 State.reset (fun t =>
    decide (t.block.tzc = 0#32) && holds 1 0 0x61 t) = true := by decide +kernel

/-- V-SM1. -/
theorem test_setmod : after 0x40000000#32 (withRegs [(0, 341)]) (fun t => holds 0 341 0x2 t &&
    decide (t.block.modn = 341#512) && t.block.mt[511]? == some 682#1024) = true := by decide +kernel

/-- V-SM8: a failed SETMOD keeps the old context. -/
theorem test_setmod_range : after 0x40000000#32 (withContext 341 State.reset) (fun t =>
    decide (t.block.modn = 341#512) && holds 0 0 0x73 t) = true := by decide +kernel

/-- V-RD1. -/
theorem test_reduce : after 0x41100000#32 (withContext 341 (withRegs [(1, 1024)])) (holds 1 1 0x2) = true := by
  decide +kernel

/-- V-RD6: a value the 513 steps do not bring below N. -/
theorem test_reduce_beyond : after 0x41100000#32 (withContext 341 (withRegs [(1, 341 * 2 ^ 513)])) (holds 1 341 0x2) = true := by
  decide +kernel

/-- V-MM8: the largest product the engine forms. -/
theorem test_mulmod : after 0x42534000#32 (withContext (2 ^ 512 - 1) (withRegs [(3, 2 ^ 512 - 2), (4, 2 ^ 512 - 2)]))
    (holds 5 1 0x2) = true := by decide +kernel

/-- V-MM10: the second operand is not reduced. -/
theorem test_mulmod_not_reduced : after 0x42534000#32 (withContext 341 (withRegs [(3, 1), (4, 341), (5, 99)]))
    (holds 5 99 0x53) = true := by decide +kernel

/-- The register overlap of the POWMOD table: `powmod w1, w1, w2`. -/
theorem test_powmod : after 0x43112000#32 (withContext 341 (withRegs [(1, 2), (2, 85)])) (fun t =>
    holds 1 32 0x2 t && holds 2 85 0x2 t) = true := by decide +kernel

/-- V-PW14: with N = 1 the running result 1 is not reduced. -/
theorem test_powmod_modulus_one : after 0x43312000#32 (withContext 1 (withRegs [(2, 1), (3, 99)])) (holds 3 99 0x53) = true := by
  decide +kernel

/-! ## The fault state, illegal words and the host's accesses -/

/-- V-PR1: IllegalCommand wins over NoModulus. -/
theorem test_illegal_wins : after 0x41110000#32 State.reset (fun t =>
    holds 0 0 0x91 t && decide (t.block.errInfo = 0x41110000#32)) = true := by decide +kernel

/-- V-PR2: NoModulus wins over OperandNotReduced. -/
theorem test_no_modulus_wins : after 0x42333000#32 (withRegs [(3, 2 ^ 600)]) (holds 3 (2 ^ 600) 0x81) = true := by
  decide +kernel

/-- V-PR4 and V-PR8: discarded in the fault state. -/
theorem test_fault_state_discards : after 0x301000FF#32 (faulted State.reset) (holds 1 0 0x61) = true ∧
    after 0x01000001#32 (faulted (withRegs [(1, 5)])) (holds 1 5 0x61) = true := by decide +kernel

/-- V-PR7: a host write to `SCL` still stores in the fault state. -/
theorem test_scl_write_in_fault_state : afterAction (.write 0x08 4 7) (faulted State.reset) (fun t =>
    decide (t.block.scl = 7#32) && holds 0 0 0x61 t) = true := by decide +kernel

/-- "Host view of V-LB1": `MemRead(0x80, 4)` = 0x01550000, `MemRead(0x81, 1)` = 0x55. -/
theorem test_buf_reads :
    afterAction (.read 0x80 4) (withBuf [(0, 0x01), (1, 0x55)] State.reset) (fun t => t.readData == some 0x01550000) = true ∧
    afterAction (.read 0x81 1) (withBuf [(0, 0x01), (1, 0x55)] State.reset) (fun t => t.readData == some 0x55) = true := by
  decide +kernel

/-- R53: the 4-byte write is big-endian. -/
theorem test_buf_word_write : afterAction (.write 0xFC 4 0x02030405#32) State.reset (fun t =>
    t.block.buf == [(124, 0x02#8), (125, 0x03#8), (126, 0x04#8), (127, 0x05#8)]) = true := by decide +kernel

/-- R54: a 2-byte write to `BUF` changes nothing; an unmapped offset has no step. -/
theorem test_refused_and_unmapped :
    afterAction (.write 0x80 2 0xFFFF#32) State.reset (fun t => t.block.buf == []) = true ∧
    (match step (next (.write 0x14 4 0#32) State.reset) with
      | .fault (.unmappedAccess 0x14 4) => true
      | _ => false) = true := by decide +kernel

/-- R220: hardware reset. -/
theorem test_hardware_reset : afterAction .reset (faulted (withRegs [(1, 5)])) (holds 1 0 0) = true := by decide +kernel

/-- The host's two hooks: a word placed at reset is the first command that runs. -/
theorem test_withFetchWord : (match step ((withScl 9 State.reset).withFetchWord 32 0x11200000) with
    | .next t => holds 2 9 0 t
    | _ => false) = true := by decide +kernel

/-- R90, R91, R95: lines of a program. -/
theorem test_assembler :
    assembleLine "powmod w3, w1, w12 ; comment" = some [cmd (.powmod 3 1 12)] ∧
    assembleLine "LDB w0, 0x10" = some [cmd (.ldb 0 16)] ∧
    assembleLine "wrbuf 0, 01 5f" = some [.write 0x80 1 0x01#32, .write 0x81 1 0x5F#32] ∧
    assembleLine "mov w16, w1" = none := by decide +kernel

/-- R154, R128 on one case each. -/
theorem test_limbs : ofLimbsLs (mulLimbs (BitVec.ofNat 1024 (2 ^ 512 - 1)) 3#1024) = 3 * (2 ^ 512 - 1) ∧
    (addLimbs (limbsLs (BitVec.ofNat 1024 (2 ^ 1024 - 1))) 1).2 = 1 := by decide +kernel

/-! ## Witnesses: a concrete state and operands that meet the hypotheses of each statement, clause by clause -/

theorem witness_DecodeOfEncodeIsTheCommand : Instr.wf (.ldb 15 128) = true ∧ Instr.wf (.shl 0 15 255) = true := by decide

theorem witness_EncodeOfDecodeIsTheWord : decode 0x10F00080#32 = .ok (.ldb 15 128) := by decide

theorem witness_LegalWordsAreTheMaskTable :
    decode 0x42534000#32 = .ok (.mulmod 5 3 4) ∧
    0x42534000#32 &&& (opcodeRow (.mulmod 0 0 0)).mask = (opcodeRow (.mulmod 0 0 0)).pattern ∧
    0x10300081#32 &&& (opcodeRow (.ldb 0 0)).mask = (opcodeRow (.ldb 0 0)).pattern := by decide

theorem witness_NopChangesNothing : (faulted State.reset).block.err = true ∧
    (0x00FFFFFF#32).toNat / 2 ^ 24 = 0x00 ∧ 0x00FFFFFF#32 ≠ encode .nop := by decide +kernel

theorem witness_SrstTakesTheResetState : (faulted State.reset).block.err = true ∧
    (0x01000001#32).toNat / 2 ^ 24 = 0x01 ∧ 0x01000001#32 ≠ encode .srst := by decide +kernel

/-- The value of the first `n` bytes of the buffer, as the LDB statement writes it. -/
abbrev bytesValue (s : State) (n : Nat) : Nat :=
  ∑ k ∈ Finset.range n, (Memory.read s.block.buf k).toNat * 256 ^ (n - 1 - k)

theorem witness_LdbLoadsBigEndianBytes_fits :
    (128#8).toNat ≤ 128 ∧ bytesValue (withBuf [(64, 1)] State.reset) 128 < 2 ^ 512 := by decide +kernel

theorem witness_LdbLoadsBigEndianBytes_tooWide :
    (65#8).toNat ≤ 128 ∧ 2 ^ 512 ≤ bytesValue (withBuf [(0, 1)] State.reset) 65 := by decide +kernel

theorem witness_LdbLoadsBigEndianBytes_tooLong : 128 < (129#8).toNat := by decide

theorem witness_StbStoresTheBigEndianImage : Memory.wf (withBuf [(0, 7), (127, 9)] State.reset).block.buf = true := by
  decide +kernel

theorem witness_AddsAddsTheScalarOrFaults_fits :
    ((withScl 0xFFFFFFFF#32 (withRegs [(4, 2 ^ 1024 - 2 ^ 32)])).reg 4).toNat + (0xFFFFFFFF#32).toNat < 2 ^ 1024 := by
  decide +kernel

theorem witness_AddsAddsTheScalarOrFaults_overflow :
    2 ^ 1024 ≤ ((withScl 0xFFFFFFFF#32 (withRegs [(4, 2 ^ 1024 - 2 ^ 32 + 1)])).reg 4).toNat + (0xFFFFFFFF#32).toNat := by
  decide +kernel

theorem witness_SubsSubtractsTheScalarOrFaults_fits :
    (withScl 5 (withRegs [(0, 5)])).block.scl.toNat ≤ ((withScl 5 (withRegs [(0, 5)])).reg 0).toNat := by decide +kernel

theorem witness_SubsSubtractsTheScalarOrFaults_underflow :
    ((withScl 5 (withRegs [(0, 4)])).reg 0).toNat < (withScl 5 (withRegs [(0, 4)])).block.scl.toNat := by decide +kernel

theorem witness_SubSubtractsInPlaceOrFaults_fits :
    ((withRegs [(1, 32), (3, 32)]).reg 3).toNat ≤ ((withRegs [(1, 32), (3, 32)]).reg 1).toNat := by decide +kernel

theorem witness_SubSubtractsInPlaceOrFaults_underflow :
    ((withRegs [(1, 31), (3, 32)]).reg 1).toNat < ((withRegs [(1, 31), (3, 32)]).reg 3).toNat := by decide +kernel

theorem witness_ShiftAmounts : (31#8).toNat < 32 ∧ 32 ≤ (32#8).toNat := by decide

theorem witness_CtzCountsTrailingZerosOrFaults :
    ((withRegs [(1, 2 ^ 1000 * 2 ^ 23)]).reg 1).toNat ≠ 0 ∧ (State.reset.reg 1).toNat = 0 := by decide +kernel

theorem witness_SetmodBuildsTheContextOrFaults_inRange :
    1 ≤ ((withRegs [(0, 2 ^ 512 - 1)]).reg 0).toNat ∧ ((withRegs [(0, 2 ^ 512 - 1)]).reg 0).toNat < 2 ^ 512 := by
  decide +kernel

theorem witness_SetmodBuildsTheContextOrFaults_outOfRange :
    (State.reset.reg 0).toNat = 0 ∧ 2 ^ 512 ≤ ((withRegs [(0, 2 ^ 512)]).reg 0).toNat := by decide +kernel

theorem contextReady_withContext {n : Nat} (h : 1 ≤ (BitVec.ofNat 512 n).toNat) (s : State) :
    ContextReady (withContext n s).block :=
  ⟨rfl, h, by simp only [withContext]⟩

theorem contextReady_341 (s : State) : ContextReady (withContext 341 s).block :=
  contextReady_withContext (by decide +kernel) s

/-- The outcome is a next state. -/
def isNext : Host.Outcome State Fault Refusal → Bool
  | .next _ => true
  | .fault _ => false
  | .refused _ => false

theorem next_of_isNext {o : Host.Outcome State Fault Refusal} (h : isNext o = true) : ∃ t, o = .next t := by
  cases o with
  | next t => exact ⟨t, rfl⟩
  | fault _ => cases h
  | refused _ => cases h

theorem witness_ReduceReducesByTheTableOrFaults :
    (withContext 341 State.reset).block.mv = true ∧ State.reset.block.mv = false ∧
    ContextReady (withContext 341 State.reset).block :=
  ⟨rfl, rfl, contextReady_341 _⟩

theorem witness_MulmodMultipliesModNOrFaults_reduced :
    ContextReady (withContext 341 (withRegs [(3, 340), (4, 340)])).block ∧
    ((withRegs [(3, 340), (4, 340)]).reg 3).toNat < 341 ∧ ((withRegs [(3, 340), (4, 340)]).reg 4).toNat < 341 :=
  ⟨contextReady_341 _, by decide +kernel, by decide +kernel⟩

theorem witness_MulmodMultipliesModNOrFaults_notReduced :
    (withContext 341 (withRegs [(3, 341)])).block.mv = true ∧ 341 ≤ ((withRegs [(3, 341)]).reg 3).toNat ∧
    State.reset.block.mv = false := by decide +kernel

theorem witness_PowmodExponentiatesModNOrFaults_zeroExponent :
    (withContext 341 (withRegs [(1, 341)])).block.mv = true ∧ ((withRegs [(1, 341)]).reg 2).toNat = 0 := by
  decide +kernel

theorem witness_PowmodExponentiatesModNOrFaults_noContext :
    (withRegs [(1, 2)]).block.mv = false ∧ ((withRegs [(1, 2)]).reg 2).toNat = 0 := by decide +kernel

theorem witness_PowmodExponentiatesModNOrFaults_notReduced :
    (withContext 341 (withRegs [(1, 341), (2, 1)])).block.mv = true ∧ 0 < ((withRegs [(1, 341), (2, 1)]).reg 2).toNat ∧
    (withContext 341 (withRegs [(1, 341), (2, 1)])).block.modn.toNat ≤ ((withRegs [(1, 341), (2, 1)]).reg 1).toNat := by
  decide +kernel

theorem witness_PowmodExponentiatesModNOrFaults_modulusOne :
    ContextReady (withContext 1 (withRegs [(2, 1)])).block ∧ 0 < ((withRegs [(2, 1)]).reg 2).toNat ∧
    ((withRegs [(2, 1)]).reg 1).toNat < (withContext 1 (withRegs [(2, 1)])).block.modn.toNat ∧
    (withContext 1 (withRegs [(2, 1)])).block.modn.toNat = 1 :=
  ⟨contextReady_withContext (by decide +kernel) _, by decide +kernel, by decide +kernel, by decide +kernel⟩

theorem witness_PowmodExponentiatesModNOrFaults_result :
    ContextReady (withContext 341 (withRegs [(1, 2), (2, 85)])).block ∧ 0 < ((withRegs [(1, 2), (2, 85)]).reg 2).toNat ∧
    ((withRegs [(1, 2), (2, 85)]).reg 1).toNat < (withContext 341 (withRegs [(1, 2), (2, 85)])).block.modn.toNat ∧
    2 ≤ (withContext 341 (withRegs [(1, 2), (2, 85)])).block.modn.toNat :=
  ⟨contextReady_341 _, by decide +kernel, by decide +kernel, by decide +kernel⟩

theorem witness_ReductionClosedForm :
    1 ≤ 341 ∧ 341 < 2 ^ 512 ∧ 341 * 2 ^ 513 - 1 < 2 ^ 1024 ∧ 341 * 2 ^ 513 - 1 < 341 * 2 ^ 513 ∧
    341 * 2 ^ 513 < 2 ^ 1024 ∧ 341 * 2 ^ 513 ≤ 341 * 2 ^ 513 := by decide +kernel

theorem witness_MulmodFunctionIsTheProductModN :
    ContextReady (withContext 341 State.reset).block ∧ 340 < (withContext 341 State.reset).block.modn.toNat ∧
    (withContext 341 State.reset).block.modn.toNat ≤ 341 :=
  ⟨contextReady_341 _, by decide +kernel, by decide +kernel⟩

theorem witness_PowmodIterationsSquareAndMultiply :
    ContextReady (withContext 341 State.reset).block ∧ 2 ≤ (withContext 341 State.reset).block.modn.toNat ∧
    2 < (withContext 341 State.reset).block.modn.toNat ∧ 2 ^ 7 ≤ 2 * 85 :=
  ⟨contextReady_341 _, by decide +kernel, by decide +kernel, by decide⟩

theorem witness_DoublingBuildsTheTable : 1 ≤ 341 ∧ 341 < 2 ^ 512 := by decide +kernel

theorem witness_LimbShiftsAreTheShifts : 0 < 32 ∧ 31 < 32 := by decide

theorem witness_SchoolbookIsTheExactProduct : (BitVec.ofNat 1024 (2 ^ 512 - 1)).toNat < 2 ^ 512 := by decide +kernel

theorem witness_StepRunsTheDecodedCommand :
    (next (commandWrite 0x43312000#32) State.reset).pending = [commandWrite 0x43312000#32] ∧
    State.reset.block.err = false ∧ decode 0x43312000#32 = .ok (.powmod 3 1 2) := by decide +kernel

theorem witness_StepFaultsOnIllegalWords :
    (next (commandWrite 0x02000000#32) State.reset).pending = [commandWrite 0x02000000#32] ∧
    State.reset.block.err = false ∧ decode 0x02000000#32 = .error .unknownOpcode := by decide +kernel

theorem witness_FaultStateDiscardsAllButSrst :
    (next (commandWrite 0x01000001#32) (faulted State.reset)).pending = [commandWrite 0x01000001#32] ∧
    (next (commandWrite 0x01000000#32) (faulted State.reset)).pending = [commandWrite 0x01000000#32] ∧
    (faulted State.reset).block.err = true ∧ 0x01000001#32 ≠ 0x01000000#32 := by decide +kernel

theorem witness_OnlyResetLeavesTheFaultState :
    (next .reset (faulted State.reset)).block.err = true ∧
    step (next .reset (faulted State.reset)) = .next State.reset := ⟨rfl, rfl⟩

theorem witness_HardwareResetIsSrst : (next .reset (faulted State.reset)).pending = [.reset] := rfl

theorem witness_IdleWithNoHostAction : (withRegs [(1, 5)]).pending = [] := rfl

theorem witness_CommandCompletesOrOnlyFaults :
    State.reset.block.err = false ∧ (∃ t, exec (.lds 1) State.reset = .next t) :=
  ⟨rfl, next_of_isNext (by decide +kernel)⟩

theorem witness_FaultCausesOfEachCommand :
    State.reset.block.err = false ∧
    exec (.ctz 1) State.reset = .next (raise .ctzZero (encode (.ctz 1)) State.reset) ∧
    (raise .ctzZero (encode (.ctz 1)) State.reset).block.errCode = Cause.ctzZero.code := ⟨rfl, rfl, rfl⟩

theorem witness_FlagsWrittenOnlyByCmpAndReset :
    (∃ t, exec (.sub 1 3) (withRegs [(1, 340), (3, 32)]) = .next t) ∧ Instr.sub 1 3 ≠ .srst ∧
    ∀ ra rb, Instr.sub 1 3 ≠ .cmp ra rb := ⟨next_of_isNext (by decide +kernel), by decide, fun _ _ => by simp⟩

theorem witness_ContextWrittenOnlyBySetmodAndReset :
    ∃ t, step (next (commandWrite 0x00000000#32) (withContext 341 State.reset)) = .next t :=
  next_of_isNext (by decide +kernel)

theorem witness_RegistersWrittenOnlyAsDestination :
    (∃ t, exec (.mov 2 1) (withRegs [(1, 5)]) = .next t) ∧ Instr.mov 2 1 ≠ .srst ∧
    destination (.mov 2 1) ≠ some 1 := ⟨next_of_isNext (by decide +kernel), by decide, by decide⟩

theorem witness_WritersOfSclTzcAndBuf :
    (∃ t, exec (.lds 1) (withScl 7 State.reset) = .next t) ∧ Instr.lds 1 ≠ .srst ∧
    (∀ ra, Instr.lds 1 ≠ .ctz ra) ∧ ∀ ra, Instr.lds 1 ≠ .stb ra :=
  ⟨next_of_isNext (by decide +kernel), by decide, fun _ => by simp, fun _ => by simp⟩

theorem witness_StepKeepsTheInvariant :
    (next (.write 0x80 4 0x01020304#32) (withContext 341 State.reset)).block.Inv ∧
    ∃ t, step (next (.write 0x80 4 0x01020304#32) (withContext 341 State.reset)) = .next t :=
  ⟨⟨rfl, rfl, by decide +kernel, fun _ => ⟨rfl, rfl⟩, fun h => (by cases h), fun h => (by cases h),
    fun _ => ⟨by decide +kernel, by simp only [withContext, next]⟩, by decide +kernel⟩, next_of_isNext (by decide +kernel)⟩

theorem witness_CanonicalBufferIsDetermined :
    Memory.wf [(3, 5#8), (127, 1#8)] = true ∧
    ∀ k, Memory.read [(3, 5#8), (127, 1#8)] k = Memory.read [(3, 5#8), (127, 1#8)] k := ⟨by decide, fun _ => rfl⟩

theorem witness_StbThenLdbMovesTheValue :
    Memory.wf (withRegs [(3, 2 ^ 512 - 1)]).block.buf = true ∧ ((withRegs [(3, 2 ^ 512 - 1)]).reg 3).toNat < 2 ^ 512 := by
  decide +kernel

theorem witness_ControlRegistersReadAsSpecified (off : Nat) :
    (next (.read off 4) (faulted State.reset)).pending = .read off 4 :: [] := rfl

theorem witness_BufferReadsAreBigEndian :
    127 < 128 ∧ (next (.read (0x80 + 127) 1) State.reset).pending = [.read (0x80 + 127) 1] ∧
    124 % 4 = 0 ∧ (next (.read (0x80 + 124) 4) State.reset).pending = [.read (0x80 + 124) 4] := by decide +kernel

theorem witness_BufferWritesStoreTheirBytes :
    Memory.wf (faulted State.reset).block.buf = true ∧
    (next (.write (0x80 + 127) 1 0x1FF#32) (faulted State.reset)).pending = [.write (0x80 + 127) 1 0x1FF#32] ∧
    (next (.write (0x80 + 124) 4 0x1FF#32) (faulted State.reset)).pending = [.write (0x80 + 124) 4 0x1FF#32] := by
  decide +kernel

theorem witness_ControlWritesStoreOrAreIgnored (off : Nat) :
    (next (.write off 4 7) (faulted State.reset)).pending = .write off 4 7 :: [] := rfl

theorem witness_RefusedAccessesChangeNoState :
    (0x12 + 2 ≤ 0x14 ∧ ¬ (2 = 4 ∧ 0x12 % 4 = 0) ∧ ¬ (2 = 1 ∧ 0x80 ≤ 0x12)) ∧
    (0x80 ≤ 0xF8 ∧ 0xF8 + 8 ≤ 0x100 ∧ ¬ (8 = 4 ∧ 0xF8 % 4 = 0) ∧ ¬ (8 = 1 ∧ 0x80 ≤ 0xF8)) ∧
    (0x14 < 0x12 + 4 ∧ 0x12 < 0x80) ∧ 0x100 < 0xFD + 4 := by decide

theorem witness_DecompReconstructsNMinusOne :
    (withRegs [(0, 341)]).block.err = false ∧ 2 ≤ ((withRegs [(0, 341)]).reg 0).toNat := by decide +kernel

/-- The start of MRROUND for N = 97, `m` = 3, `k` = 5 and the witness 2 (V-S1e). -/
def roundStart : State := withContext 97 (withRegs [(1, 96), (2, 3), (6, 1), (4, 2)])

theorem witness_WitnessRoundsOfPrimesPass :
    roundStart.block.err = false ∧ ContextReady roundStart.block ∧ roundStart.block.modn.toNat = 97 ∧ Nat.Prime 97 ∧
    (roundStart.reg 1).toNat = roundStart.block.modn.toNat - 1 ∧
    (roundStart.reg 1).toNat = (roundStart.reg 2).toNat * 2 ^ 5 ∧ (roundStart.reg 6).toNat = 1 ∧
    2 ≤ (roundStart.reg 4).toNat ∧ (roundStart.reg 4).toNat + 2 ≤ roundStart.block.modn.toNat :=
  ⟨by decide +kernel, contextReady_withContext (by decide +kernel) _, by decide +kernel, by norm_num, by decide +kernel, by decide +kernel,
    by decide +kernel, by decide +kernel, by decide +kernel⟩

end Sys2Proof.Tests
end

section
/-! PROOFS. The scope of the model (spec/00_scope.md): the limb numeral of R11, the canonical form of the operand buffer,
and the idle block of R9. -/

namespace Sys2Proof.Machine

/-! The limb numeral -/

/-- Reading one more limb, most significant first, is one more step of R11's numeral. -/
theorem ofLimbsMsFrom_concat (acc x : Nat) (xs : List Nat) :
    ofLimbsMsFrom acc (xs ++ [x]) = ofLimbsMsFrom acc xs * limbBase + x := by
  induction xs generalizing acc with
  | nil => rfl
  | cons y ys ih => exact ih (acc * limbBase + y)

/-- The two readings of a numeral agree on reversed lists of limbs. -/
theorem ofLimbsMs_reverse (xs : List Nat) : ofLimbsMs xs.reverse = ofLimbsLs xs := by
  induction xs with
  | nil => rfl
  | cons x xs ih =>
    calc ofLimbsMs (x :: xs).reverse = ofLimbsMs xs.reverse * limbBase + x := by
          rw [List.reverse_cons, ofLimbsMs, ofLimbsMsFrom_concat, ofLimbsMs]
      _ = ofLimbsLs (x :: xs) := by rw [ih, ofLimbsLs, Nat.mul_comm, Nat.add_comm]

/-- The integer of a list of limbs is Mathlib's reading of it as a list of base-`2^32` digits. -/
theorem ofLimbsLs_eq_ofDigits (xs : List Nat) : ofLimbsLs xs = Nat.ofDigits limbBase xs := by
  induction xs with
  | nil => rfl
  | cons x xs ih => rw [ofLimbsLs, ih, Nat.ofDigits_cons]

/-- The first `n` base-`b` digits of a number, least significant first, are the number modulo `b^n`. -/
theorem ofDigits_map_range (b n x : Nat) :
    Nat.ofDigits b ((List.range n).map fun i => x / b ^ i % b) = x % b ^ n := by
  induction n generalizing x with
  | zero => simp [Nat.mod_one]
  | succ n ih =>
    have tail : ((List.range n).map Nat.succ).map (fun i => x / b ^ i % b) =
        (List.range n).map fun i => x / b / b ^ i % b := by
      simp [Nat.pow_succ', Nat.div_div_eq_div_mul]
    rw [List.range_succ_eq_map, List.map_cons, tail, Nat.ofDigits_cons, ih, Nat.pow_zero, Nat.div_one,
      Nat.pow_succ', Nat.mod_mul]

/-- Limb `i` from the least-significant end is digit `i` of the value in base `2^32` (R11, R128). -/
theorem limb_toNat_eq_digit (v : Wide) {i : Nat} (hi : i < 32) :
    (limb v (31 - i)).toNat = v.toNat / limbBase ^ i % limbBase := by
  have position : 992 - 32 * (31 - i) = 32 * i := by omega
  rw [limb, position, BitVec.extractLsb'_toNat, Nat.shiftRight_eq_div_pow, limbBase, ← Nat.pow_mul]

/-- The limbs of a wide value, least significant first, are its base-`2^32` digits. -/
theorem limbsLs_eq_digits (v : Wide) :
    limbsLs v = (List.range 32).map fun i => v.toNat / limbBase ^ i % limbBase :=
  List.map_congr_left fun _ hi => limb_toNat_eq_digit v (List.mem_range.mp hi)

set_option exponentiation.threshold 1024 in
/-- 32 limbs hold every wide value (R7, R11). -/
theorem toNat_lt_limbBase_pow (v : Wide) : v.toNat < limbBase ^ 32 := by
  rw [limbBase, ← Nat.pow_mul]
  exact v.isLt

/-- The least-significant-first limbs are the numeral of the value (R11). -/
theorem ofLimbsLs_limbsLs (v : Wide) : ofLimbsLs (limbsLs v) = v.toNat := by
  rw [limbsLs_eq_digits, ofLimbsLs_eq_ofDigits, ofDigits_map_range,
    Nat.mod_eq_of_lt (toNat_lt_limbBase_pow v)]

/-- The two orders of the limbs are each other's reverse (R11, R128). -/
theorem limbsLs_eq_reverse (v : Wide) : limbsLs v = (limbsMs v).reverse := by
  rw [limbsLs, limbsMs, ← List.map_reverse, List.range_eq_range', List.reverse_range', List.map_map,
    ← List.range_eq_range']
  exact List.map_congr_left fun i _ => by simp

/-- The most-significant-first limbs are the numeral of the value (R11). -/
theorem ofLimbsMs_limbsMs (v : Wide) : ofLimbsMs (limbsMs v) = v.toNat := by
  rw [← List.reverse_reverse (limbsMs v), ← limbsLs_eq_reverse, ofLimbsMs_reverse, ofLimbsLs_limbsLs]

/-- Settles O26: the least-significant-first limbs are the value's digits, and the other order is their reverse. -/
theorem limbsAreTheNumeral : Obligations.LimbsAreTheNumeral :=
  fun v => ⟨ofLimbsMs_limbsMs v, ofLimbsLs_limbsLs v, limbsLs_eq_reverse v⟩

/-! The canonical form of the operand buffer -/

@[simp] theorem read_cons_self (a : Nat) (b : Byte) (m : Memory) : Memory.read ((a, b) :: m) a = b := if_pos rfl

theorem read_cons_other {a k : Nat} (h : a ≠ k) (b : Byte) (m : Memory) :
    Memory.read ((a, b) :: m) k = Memory.read m k := if_neg h

/-- A canonical buffer reads as listed at its first index. -/
theorem read_head_ne_unlisted {lo a : Nat} {b : Byte} {m : Memory} (hm : Memory.wfFrom lo ((a, b) :: m) = true) :
    Memory.read ((a, b) :: m) a ≠ Memory.unlisted := by
  obtain ⟨-, -, listed, -⟩ := wfFrom_cons.mp hm
  rwa [read_cons_self]

/-- No index below the first one of a canonical buffer reads as listed. -/
theorem head_le_of_read_ne {lo a k : Nat} {b : Byte} {m : Memory} (hm : Memory.wfFrom lo ((a, b) :: m) = true)
    (h : Memory.read ((a, b) :: m) k ≠ Memory.unlisted) : a ≤ k := by
  obtain ⟨-, rest⟩ := wfFrom_cons.mp hm
  by_contra below
  exact h (read_below (Nat.lt_of_not_le below) (wfFrom_cons.mpr ⟨le_rfl, rest⟩))

/-- Two canonical tails after the same index read the same when the whole buffers do. -/
theorem read_tail_eq {a : Nat} {b b' : Byte} {m m' : Memory} (hm : Memory.wfFrom (a + 1) m = true)
    (hm' : Memory.wfFrom (a + 1) m' = true)
    (h : ∀ k, Memory.read ((a, b) :: m) k = Memory.read ((a, b') :: m') k) (k : Nat) :
    Memory.read m k = Memory.read m' k := by
  by_cases hk : a = k
  · rw [read_below (by omega) hm, read_below (by omega) hm']
  · simpa only [read_cons_other hk] using h k

/-- The canonical form from any index on is determined by what it reads. -/
theorem eq_of_read_eq {lo lo' : Nat} {m m' : Memory} (hm : Memory.wfFrom lo m = true)
    (hm' : Memory.wfFrom lo' m' = true) (h : ∀ k, Memory.read m k = Memory.read m' k) : m = m' := by
  induction m generalizing lo lo' m' with
  | nil =>
    cases m' with
    | nil => rfl
    | cons p' m' => exact absurd (h p'.1).symm (read_head_ne_unlisted hm')
  | cons p m ih =>
    obtain ⟨a, b⟩ := p
    cases m' with
    | nil => exact absurd (h a) (read_head_ne_unlisted hm)
    | cons p' m' =>
      obtain ⟨a', b'⟩ := p'
      obtain rfl : a = a' := le_antisymm
        (head_le_of_read_ne hm (h a' ▸ read_head_ne_unlisted hm'))
        (head_le_of_read_ne hm' (h a ▸ read_head_ne_unlisted hm))
      obtain rfl : b = b' := by simpa using h a
      obtain ⟨-, -, -, tail⟩ := wfFrom_cons.mp hm
      obtain ⟨-, -, -, tail'⟩ := wfFrom_cons.mp hm'
      rw [ih tail tail' (read_tail_eq tail tail' h)]

/-- Settles O48, by induction on the canonical lists from any index on. -/
theorem canonicalBufferIsDetermined : Obligations.CanonicalBufferIsDetermined :=
  fun _ _ hm hm' h => eq_of_read_eq hm hm' h

/-! The idle block -/

/-- Settles O38: of the two things a step can do, a pending action is excluded. -/
theorem idleWithNoHostAction : Obligations.IdleWithNoHostAction := by
  intro s idle
  rcases performNext_cases s with ⟨-, stays⟩ | ⟨a, rest, pending, -⟩
  · exact stays
  · rw [idle] at pending
    cases pending

end Sys2Proof.Machine
end

section
/-! PROOFS. The state of the block (spec/10_state.md): which commands write which part of it, the invariant every step
keeps, and the values the host reads from the control registers. -/

namespace Sys2Proof.Machine

/-! What a step performs -/

/-- With an action pending, a step performs it (R14). -/
theorem step_of_pending {s : State} {a : HostAction} {rest : List HostAction} (h : s.pending = a :: rest) :
    step s = performAction a { s with pending := rest } := by
  rw [step, performNext, h]

/-- A step that answers a next state leaves the block idle or performed the pending action (R14). -/
theorem step_next {s t : State} (h : step s = .next t) :
    t = s ∨ ∃ a rest, s.pending = a :: rest ∧ performAction a { s with pending := rest } = .next t := by
  rw [step] at h
  rcases performNext_cases s with ⟨-, idle⟩ | ⟨a, rest, pending, performs⟩
  · rw [idle] at h
    cases h
    exact .inl rfl
  · exact .inr ⟨a, rest, pending, performs ▸ h⟩

/-! Which commands write which part of the state (R20, R22, R28 to R30) -/

/-- R20's column "Written by", for every command but SRST: each part of the state is unchanged unless the command is one
that writes it. A field's default proves it for an update that leaves the part alone, so that an update's proof names
only the part it writes. -/
structure WritesOnlyItsOwn (i : Instr) (s t : State) : Prop where
  regs : ∀ r, destination i ≠ some r → t.reg r = s.reg r := by intros; simp only [State.reg, raise_w]
  buf : (∀ ra, i ≠ .stb ra) → SameBuf s t := by exact fun _ _ => rfl
  scl : t.block.scl = s.block.scl := by exact rfl
  tzc : (∀ ra, i ≠ .ctz ra) → t.block.tzc = s.block.tzc := by exact fun _ => rfl
  flags : (∀ ra rb, i ≠ .cmp ra rb) → SameFlags s t := by exact fun _ => ⟨rfl, rfl⟩
  context : (∀ ra, i ≠ .setmod ra) → SameContext s t := by exact fun _ => ⟨rfl, rfl, rfl⟩
  host : SameHost s t := by exact ⟨rfl, rfl, rfl⟩

/-- A command other than SRST writes what R20 lets it write: fault entry and NOP write no listed part, and every other
update writes one. -/
theorem exec_writesOnlyItsOwn {i : Instr} {s t : State} (h : exec i s = .next t) (notSrst : i ≠ .srst) :
    WritesOnlyItsOwn i s t := by
  rcases exec_cases i s t h with ⟨c, -, rfl⟩ | ⟨rfl, -⟩ | ⟨-, rfl⟩ | ⟨rd, v, writes, rfl⟩ | ⟨ra, rfl, rfl⟩ |
    ⟨ra, rb, rfl, rfl⟩ | ⟨ra, rfl, -, rfl⟩ | ⟨ra, rfl, -, -, rfl⟩
  · exact {}
  · exact absurd rfl notSrst
  · exact {}
  · exact { regs := fun r other => reg_setReg_other s rd v fun e => other (e ▸ writes) }
  · exact { buf := fun notStb => absurd rfl (notStb ra) }
  · exact { flags := fun notCmp => absurd rfl (notCmp ra rb) }
  · exact { tzc := fun notCtz => absurd rfl (notCtz ra) }
  · exact { context := fun notSetmod => absurd rfl (notSetmod ra) }

/-- No command touches the host's side; SRST resets the block alone (R9, R171). -/
theorem exec_sameHost {i : Instr} {s t : State} (h : exec i s = .next t) : SameHost s t := by
  by_cases srst : i = .srst
  · subst srst
    cases h
    exact ⟨rfl, rfl, rfl⟩
  · exact (exec_writesOnlyItsOwn h srst).host

/-- Settles O42. -/
theorem flagsWrittenOnlyByCmpAndReset : Obligations.FlagsWrittenOnlyByCmpAndReset :=
  fun _ _ _ h notSrst notCmp => (exec_writesOnlyItsOwn h notSrst).flags notCmp

/-- Settles O44. -/
theorem registersWrittenOnlyAsDestination : Obligations.RegistersWrittenOnlyAsDestination :=
  fun _ _ _ r h notSrst other => (exec_writesOnlyItsOwn h notSrst).regs r other

/-- Settles O45. -/
theorem writersOfSclTzcAndBuf : Obligations.WritersOfSclTzcAndBuf :=
  fun _ _ _ h =>
    ⟨fun notSrst => (exec_writesOnlyItsOwn h notSrst).scl,
     fun notSrst notCtz => (exec_writesOnlyItsOwn h notSrst).tzc notCtz,
     fun notSrst notStb => (exec_writesOnlyItsOwn h notSrst).buf notStb,
     exec_sameHost h⟩

/-! The modulus context, whatever the host does (R30) -/

/-- The word of SRST is the command SRST (R83, R171). -/
theorem decode_srstWord : decode srstWord = .ok .srst := by decide

/-- A word written to `CMD` changes the context only when it is SRST or SETMOD (R30, R80). -/
theorem runCommand_context {cw : Word32} {s t : State} (h : runCommand cw s = .next t) :
    SameContext s t ∨ decode cw = .ok .srst ∨ ∃ ra, decode cw = .ok (.setmod ra) := by
  rcases runCommand_cases cw s with ⟨-, rfl, -⟩ | ⟨-, -, discards⟩ | ⟨-, -, faults⟩ | ⟨-, i, decodes, runs⟩
  · exact .inr (.inl decode_srstWord)
  · rw [discards] at h
    cases h
    exact .inl ⟨rfl, rfl, rfl⟩
  · rw [faults] at h
    cases h
    exact .inl ⟨rfl, rfl, rfl⟩
  · rw [runs] at h
    by_cases srst : i = .srst
    · exact .inr (.inl (srst ▸ decodes))
    · by_cases setmod : ∃ ra, i = .setmod ra
      · obtain ⟨ra, rfl⟩ := setmod
        exact .inr (.inr ⟨ra, decodes⟩)
      · exact .inl ((exec_writesOnlyItsOwn h srst).context fun ra e => setmod ⟨ra, e⟩)

/-- An access to a control register is a 4-byte access at that register's offset (R52). -/
theorem classify_control {offset size off : Nat} (h : classify offset size = .control off) :
    off = offset ∧ size = 4 := by
  unfold classify at h
  split at h
  · rename_i accepted
    injection h with h
    exact ⟨h.symm, accepted.1⟩
  · split at h
    · cases h
    · split at h
      · cases h
      · split at h <;> cases h

/-- A host write is the 4-byte write of a word to `CMD`, or writes `BUF` and `SCL` at most (R51 to R55). -/
theorem hostWrite_next {offset size : Nat} {value : Word32} {s t : State}
    (h : hostWrite offset size value s = .next t) :
    (offset = 0x00 ∧ size = 4 ∧ runCommand value s = .next t) ∨
    ∃ buf scl, t = { s with block := { s.block with buf := buf, scl := scl } } := by
  unfold hostWrite at h
  split at h
  · rename_i off accepted
    obtain ⟨rfl, rfl⟩ := classify_control accepted
    unfold controlWrite at h
    split at h
    · exact .inl ⟨by assumption, rfl, h⟩
    · split at h <;> cases h <;> exact .inr ⟨_, _, rfl⟩
  · cases h; exact .inr ⟨_, _, rfl⟩
  · cases h; exact .inr ⟨_, _, rfl⟩
  · cases h; exact .inr ⟨_, _, rfl⟩
  · cases h

/-- Settles O43, by the action the step performs: only a reset or a word written to `CMD` can change the context. -/
theorem contextWrittenOnlyBySetmodAndReset : Obligations.ContextWrittenOnlyBySetmodAndReset := by
  intro s t h
  rcases step_next h with rfl | ⟨a, rest, pending, performs⟩
  · exact .inl ⟨rfl, rfl, rfl⟩
  · cases a with
    | reset => exact .inr (.inl ⟨rest, pending⟩)
    | read offset size =>
      obtain ⟨sameBlock, -⟩ := hostRead_next performs
      left
      rw [SameContext, sameBlock]
      exact ⟨rfl, rfl, rfl⟩
    | write offset size value =>
      rcases hostWrite_next performs with ⟨rfl, rfl, runs⟩ | ⟨buf, scl, rfl⟩
      · rcases runCommand_context runs with same | changes
        · exact .inl same
        · exact .inr (.inr ⟨value, rest, pending, changes⟩)
      · exact .inl ⟨rfl, rfl, rfl⟩

/-! The invariant: one lemma per update, then one per operation -/

/-- The reset state of the block meets the invariant (R221). -/
theorem inv_reset : Block.reset.Inv where
  bufWf := wf_nil
  flagsExclusive := rfl
  tzcBound := Nat.zero_le 1023
  noFaultRecord _ := ⟨rfl, rfl⟩
  faultRecord err := nomatch err
  noContext _ := rfl
  context mv := nomatch mv
  tableLength := List.length_replicate

section updates
variable {s : State} (inv : s.block.Inv)
include inv

/-- Fault entry records a code from 1 to 9 (R191, R196). -/
theorem inv_raise (c : Cause) (cw : Word32) : (raise c cw s).block.Inv :=
  { inv with
    noFaultRecord := fun err => nomatch err
    faultRecord := fun _ => code_range c }

/-- The invariant says nothing of the wide registers (R22). -/
theorem inv_setReg (rd : Reg) (v : Wide) : (s.setReg rd v).block.Inv := { inv with }

/-- The invariant says nothing of the scalar (R29). -/
theorem inv_scl (v : Word32) : Block.Inv { s.block with scl := v } := { inv with }

theorem inv_buf {m : Memory} (wf : Memory.wf m = true) : Block.Inv { s.block with buf := m } :=
  { inv with bufWf := wf }

theorem inv_tzc {v : Word32} (bound : v.toNat ≤ 1023) : Block.Inv { s.block with tzc := v } :=
  { inv with tzcBound := bound }

theorem inv_flags {lt eq : Bool} (exclusive : (lt && eq) = false) : Block.Inv { s.block with lt := lt, eq := eq } :=
  { inv with flagsExclusive := exclusive }

/-- A new context holds its modulus, 1 or more, and that modulus's 513 shifts (R31, R140). -/
theorem inv_context {n : ModWord} {mt : List Wide} (pos : 1 ≤ n.toNat) (table : mt = shiftedTable n.toNat) :
    Block.Inv { s.block with modn := n, mt := mt, mv := true } :=
  { inv with
    noContext := fun mv => nomatch mv
    context := fun _ => ⟨pos, table⟩
    tableLength := (congrArg List.length table).trans (shiftedTable_length n.toNat) }

end updates

/-- No value is both less than and equal to another (R28, R120). -/
theorem compare_exclusive (a b : Wide) : (compareLt a b && compareEq a b) = false := by
  rw [Bool.and_eq_false_imp, compareLt, compareEq, decide_eq_true_eq, decide_eq_false_iff_not]
  rintro less rfl
  exact lt_irrefl _ less

set_option exponentiation.threshold 1024 in
/-- The trailing-zero count of a nonzero wide value is at most 1023 (R29, R132). -/
theorem trailingZeros_word_le {v : Wide} (nonzero : v.toNat ≠ 0) :
    (BitVec.ofNat 32 (trailingZeros 1024 v.toNat)).toNat ≤ 1023 := by
  obtain ⟨-, below⟩ := trailingZeros_spec 1024 v.toNat nonzero v.isLt
  rw [BitVec.toNat_ofNat]
  omega

set_option exponentiation.threshold 1024 in
/-- Every command keeps the invariant. -/
theorem exec_keeps_inv {i : Instr} {s t : State} (inv : s.block.Inv) (h : exec i s = .next t) : t.block.Inv := by
  rcases exec_cases i s t h with ⟨c, -, rfl⟩ | ⟨-, rfl⟩ | ⟨-, rfl⟩ | ⟨rd, v, -, rfl⟩ | ⟨ra, -, rfl⟩ |
    ⟨ra, rb, -, rfl⟩ | ⟨ra, -, nonzero, rfl⟩ | ⟨ra, -, nonzero, inRange, rfl⟩
  · exact inv_raise inv c (encode i)
  · exact inv_reset
  · exact inv
  · exact inv_setReg inv rd v
  · exact inv_buf inv (wf_storeImage (s.reg ra) le_rfl inv.bufWf)
  · exact inv_flags inv (compare_exclusive (s.reg ra) (s.reg rb))
  · exact inv_tzc inv (trailingZeros_word_le nonzero)
  · have modulus : (BitVec.ofNat 512 (s.reg ra).toNat).toNat = (s.reg ra).toNat := by
      rw [BitVec.toNat_ofNat, Nat.mod_eq_of_lt inRange]
    exact inv_context inv (by omega) (by rw [modulus])

/-- A word written to `CMD` keeps the invariant, in the fault state and outside it (R80). -/
theorem runCommand_keeps_inv {cw : Word32} {s t : State} (inv : s.block.Inv) (h : runCommand cw s = .next t) :
    t.block.Inv := by
  rcases runCommand_cases cw s with ⟨-, -, resets⟩ | ⟨-, -, discards⟩ | ⟨-, -, faults⟩ | ⟨-, i, -, runs⟩
  · rw [resets] at h
    cases h
    exact inv_reset
  · rw [discards] at h
    cases h
    exact inv
  · rw [faults] at h
    cases h
    exact inv_raise inv .illegalCommand cw
  · exact exec_keeps_inv inv (runs ▸ h)

/-- Every host write keeps the invariant: the accepted accesses to `BUF` stay inside it (R53). -/
theorem hostWrite_keeps_inv {offset size : Nat} {value : Word32} {s t : State} (inv : s.block.Inv)
    (h : hostWrite offset size value s = .next t) : t.block.Inv := by
  rcases hostWrite_cases h with runs | rfl | rfl | ⟨k, inside, rfl⟩ | ⟨k, inside, rfl⟩
  · exact runCommand_keeps_inv inv runs
  · exact inv
  · exact inv_scl inv value
  · exact inv_buf inv (wf_write inside _ inv.bufWf)
  · exact inv_buf inv (wf_storeBufWord inside value inv.bufWf)

/-- Settles O46, by the action the step performs. -/
theorem stepKeepsTheInvariant : Obligations.StepKeepsTheInvariant := by
  intro s t inv h
  rcases step_next h with rfl | ⟨a, rest, -, performs⟩
  · exact inv
  · cases a with
    | reset =>
      cases performs
      exact inv_reset
    | read offset size =>
      obtain ⟨sameBlock, -⟩ := hostRead_next performs
      exact sameBlock ▸ inv
    | write offset size value => exact hostWrite_keeps_inv (s := { s with pending := rest }) inv performs

/-! What the host reads from the control registers (R29, R51) -/

/-- An aligned 4-byte access below `0x14` is one to a control register (R51, R52). -/
theorem classify_control_offset {off : Nat} (aligned : off % 4 = 0) (inside : off < Config.controlEnd) :
    classify off 4 = .control off := if_pos ⟨rfl, aligned, inside⟩

/-- A 4-byte read of a control register returns its value and changes nothing else (R52, R55). -/
theorem step_controlRead {s : State} {rest : List HostAction} {off : Nat} (aligned : off % 4 = 0)
    (inside : off < Config.controlEnd) (pending : s.pending = .read off 4 :: rest) :
    step s = .next { s with pending := rest, readData := some (controlRead s.block off).toNat } := by
  rw [step_of_pending pending, performAction, hostRead, classify_control_offset aligned inside]

/-- The more significant part of a concatenation is shifted left by the width of the other (R10). -/
theorem toNat_append_eq_add {m n : Nat} (x : BitVec m) (y : BitVec n) :
    (x ++ y).toNat = x.toNat * 2 ^ n + y.toNat := by
  rw [BitVec.toNat_append, ← Nat.shiftLeft_add_eq_or_of_lt y.isLt, Nat.shiftLeft_eq]

/-- `STATUS` as a number (R29). -/
theorem statusWord_toNat (b : Block) :
    (statusWord b).toNat =
      b.err.toNat + 2 * b.mv.toNat + 4 * b.lt.toNat + 8 * b.eq.toNat + 16 * b.errCode.toNat := by
  simp only [statusWord, toNat_append_eq_add, BitVec.toNat_ofBool, BitVec.toNat_ofNat]
  omega

/-- Settles O50: each offset is the aligned offset of a control register, and `STATUS` is its bits' sum. -/
theorem controlRegistersReadAsSpecified : Obligations.ControlRegistersReadAsSpecified := by
  intro s rest
  refine ⟨step_controlRead rfl (by decide), fun pending => ?_, step_controlRead rfl (by decide),
    step_controlRead rfl (by decide), step_controlRead rfl (by decide)⟩
  rw [← statusWord_toNat]
  exact step_controlRead rfl (by decide) pending

end Sys2Proof.Machine
end

section
/-! PROOFS. The host interface (spec/20_memory.md): the accesses to `BUF`, the writes to the control registers, and the
accesses the register map does not accept. -/

namespace Sys2Proof.Machine

/-! Reads of the operand buffer (R53) -/

/-- The 4-byte view of the buffer as a number, the first byte most significant (R53). -/
theorem bufWord_toNat (m : Memory) (k : Nat) :
    (bufWord m k).toNat =
      (Memory.read m k).toNat * 2 ^ 24 + (Memory.read m (k + 1)).toNat * 2 ^ 16 +
        (Memory.read m (k + 2)).toNat * 2 ^ 8 + (Memory.read m (k + 3)).toNat := by
  simp only [bufWord, toNat_append_eq_add]
  omega

/-- A 1-byte read of `BUF[k]` returns it and changes nothing else (R53, R55). -/
theorem step_bufByteRead {s : State} {rest : List HostAction} {k : Nat} (inside : k < 128)
    (pending : s.pending = .read (0x80 + k) 1 :: rest) :
    step s = .next { s with pending := rest, readData := some (Memory.read s.block.buf k).toNat } := by
  rw [step_of_pending pending, performAction, hostRead, classify_bufByte_offset inside]

/-- An aligned 4-byte read of `BUF` returns the 4-byte view and changes nothing else (R53, R55). -/
theorem step_bufWordRead {s : State} {rest : List HostAction} {k : Nat} (aligned : k % 4 = 0) (inside : k < 128)
    (pending : s.pending = .read (0x80 + k) 4 :: rest) :
    step s = .next { s with pending := rest, readData := some (bufWord s.block.buf k).toNat } := by
  rw [step_of_pending pending, performAction, hostRead, classify_bufWord_offset aligned inside]

/-- Settles O51. -/
theorem bufferReadsAreBigEndian : Obligations.BufferReadsAreBigEndian := by
  intro s rest k
  refine ⟨step_bufByteRead, fun aligned inside pending => ?_⟩
  rw [← bufWord_toNat]
  exact step_bufWordRead aligned inside pending

/-! Writes of the operand buffer (R53) -/

/-- A byte taken out of a word is a digit of its number (R10). -/
theorem extractByte_toNat (v : Word32) (i : Nat) : (v.extractLsb' i 8).toNat = v.toNat / 2 ^ i % 256 := by
  rw [BitVec.extractLsb'_toNat, Nat.shiftRight_eq_div_pow]

section storeBufWord
variable {m : Memory} {k j : Nat}

/-- A 4-byte write leaves byte `j` of the word, from the most significant, at index `k + j` (R53). -/
theorem read_storeBufWord_stored (inside : k + 3 < Config.bufBytes) (v : Word32) (wf : Memory.wf m = true)
    (covered : j < 4) : Memory.read (storeBufWord m k v) (k + j) = v.extractLsb' (24 - 8 * j) 8 := by
  rw [read_storeBufWord inside v wf]
  interval_cases j <;> simp

/-- A 4-byte write leaves the bytes before and after its four as they were (R53). -/
theorem read_storeBufWord_other (inside : k + 3 < Config.bufBytes) (v : Word32) (wf : Memory.wf m = true)
    (outside : j < k ∨ k + 4 ≤ j) : Memory.read (storeBufWord m k v) j = Memory.read m j := by
  rw [read_storeBufWord inside v wf, if_neg (by omega), if_neg (by omega), if_neg (by omega), if_neg (by omega)]

end storeBufWord

/-- A 1-byte write to `BUF[k]` stores the low byte of the value (R53, R55). -/
theorem step_bufByteWrite {s : State} {rest : List HostAction} {k : Nat} {v : Word32} (inside : k < 128)
    (pending : s.pending = .write (0x80 + k) 1 v :: rest) :
    step s = .next { s with
      pending := rest
      block := { s.block with buf := Memory.write s.block.buf k (v.extractLsb' 0 8) } } := by
  rw [step_of_pending pending, performAction, hostWrite, classify_bufByte_offset inside]

/-- An aligned 4-byte write to `BUF` stores the word (R53, R55). -/
theorem step_bufWordWrite {s : State} {rest : List HostAction} {k : Nat} {v : Word32} (aligned : k % 4 = 0)
    (inside : k < 128) (pending : s.pending = .write (0x80 + k) 4 v :: rest) :
    step s = .next { s with
      pending := rest
      block := { s.block with buf := storeBufWord s.block.buf k v } } := by
  rw [step_of_pending pending, performAction, hostWrite, classify_bufWord_offset aligned inside]

/-- Settles O52: by the width of the write, from what the buffer reads as after it. -/
theorem bufferWritesStoreTheirBytes : Obligations.BufferWritesStoreTheirBytes := by
  intro s rest k v wf
  constructor
  · intro inside pending
    refine ⟨_, step_bufByteWrite inside pending, ?_, fun j other => read_write_other other _ _,
      onlyBuf_update { s with pending := rest } _⟩
    rw [read_write_same k _ wf, extractByte_toNat, Nat.pow_zero, Nat.div_one]
  · intro aligned inside pending
    have lastInside : k + 3 < Config.bufBytes := by
      simp only [Config.bufBytes]
      omega
    refine ⟨_, step_bufWordWrite aligned inside pending, fun j covered => ?_,
      fun j outside => read_storeBufWord_other lastInside v wf outside,
      onlyBuf_update { s with pending := rest } _⟩
    rw [read_storeBufWord_stored lastInside v wf covered, extractByte_toNat]

/-! Writes to the control registers (R51, R55) -/

theorem controlWrite_scl (v : Word32) (s : State) :
    controlWrite 0x08 v s = .next { s with block := { s.block with scl := v } } := rfl

/-- A control register other than `CMD` and `SCL` ignores what is written to it (R55). -/
theorem controlWrite_ignored {off : Nat} (notCmd : off ≠ 0x00) (notScl : off ≠ 0x08) (v : Word32) (s : State) :
    controlWrite off v s = .next s := by
  rw [controlWrite, if_neg notCmd, if_neg notScl]

/-- A 4-byte write to a control register, at its aligned offset (R51, R52). -/
theorem step_controlWrite {s : State} {rest : List HostAction} {off : Nat} {v : Word32} (aligned : off % 4 = 0)
    (inside : off < Config.controlEnd) (pending : s.pending = .write off 4 v :: rest) :
    step s = controlWrite off v { s with pending := rest } := by
  rw [step_of_pending pending, performAction, hostWrite, classify_control_offset aligned inside]

/-- A 4-byte write to a control register other than `CMD` and `SCL` changes nothing (R55). -/
theorem step_controlWrite_ignored {s : State} {rest : List HostAction} {off : Nat} {v : Word32}
    (aligned : off % 4 = 0) (inside : off < Config.controlEnd) (notCmd : off ≠ 0x00) (notScl : off ≠ 0x08)
    (pending : s.pending = .write off 4 v :: rest) : step s = .next { s with pending := rest } := by
  rw [step_controlWrite aligned inside pending, controlWrite_ignored notCmd notScl]

/-- Settles O53, by the register written. -/
theorem controlWritesStoreOrAreIgnored : Obligations.ControlWritesStoreOrAreIgnored := by
  intro s rest v
  constructor
  · intro scl
    rw [step_controlWrite rfl (by decide) scl, controlWrite_scl]
  · rintro (status | tzc | errInfo)
    · exact step_controlWrite_ignored rfl (by decide) (by decide) (by decide) status
    · exact step_controlWrite_ignored rfl (by decide) (by decide) (by decide) tzc
    · exact step_controlWrite_ignored rfl (by decide) (by decide) (by decide) errInfo

/-! Accesses the register map does not accept (R54) -/

section notAccepted
variable {off size : Nat}

/-- An access within the map is refused unless it is an aligned 4-byte one, or a 1-byte one to `BUF` (R52 to R54). -/
theorem classify_refused (mapped : off + size ≤ 0x14 ∨ (0x80 ≤ off ∧ off + size ≤ 0x100))
    (notWord : ¬ (size = 4 ∧ off % 4 = 0)) (notByte : ¬ (size = 1 ∧ 0x80 ≤ off)) :
    classify off size = .refused := by
  unfold classify Config.controlEnd Config.bufBase Config.mapEnd
  rw [if_neg (by tauto), if_neg (by tauto), if_neg (by tauto), if_pos mapped]

/-- An access that touches an offset the map does not have is none of the accepted ones (R51, R54): the control
registers end at `0x14`, and `BUF` runs from `0x80` to the map's end. -/
theorem classify_unmapped (outside : 0x14 < off + size ∧ off < 0x80 ∨ 0x100 < off + size) :
    classify off size = .unmapped := by
  unfold classify Config.controlEnd Config.bufBase Config.mapEnd
  rw [if_neg (by omega), if_neg (by omega), if_neg (by omega), if_neg (by omega)]

variable {s : State} {rest : List HostAction} {v : Word32}

theorem step_refusedWrite (refused : classify off size = .refused)
    (pending : s.pending = .write off size v :: rest) : step s = .next { s with pending := rest } := by
  rw [step_of_pending pending, performAction, hostWrite, refused]

/-- A refused read returns the next free draw and changes no state of the block (R54). -/
theorem step_refusedRead (refused : classify off size = .refused) (pending : s.pending = .read off size :: rest) :
    step s = .next { s with
      pending := rest
      readData := some (Config.refusedReadData s.freeDraws)
      freeDraws := s.freeDraws + 1 } := by
  rw [step_of_pending pending, performAction, hostRead, refused]

theorem step_unmappedWrite (unmapped : classify off size = .unmapped)
    (pending : s.pending = .write off size v :: rest) : step s = .fault (.unmappedAccess off size) := by
  rw [step_of_pending pending, performAction, hostWrite, unmapped]

theorem step_unmappedRead (unmapped : classify off size = .unmapped)
    (pending : s.pending = .read off size :: rest) : step s = .fault (.unmappedAccess off size) := by
  rw [step_of_pending pending, performAction, hostRead, unmapped]

end notAccepted

/-- Settles O54, by what the access meets in the register map. -/
theorem refusedAccessesChangeNoState : Obligations.RefusedAccessesChangeNoState := by
  intro s rest off size v
  constructor
  · intro mapped notWord notByte
    have refused : classify off size = .refused := classify_refused mapped notWord notByte
    exact ⟨step_refusedWrite refused, fun pending => ⟨_, _, step_refusedRead refused pending⟩⟩
  · intro outside
    have unmapped : classify off size = .unmapped := classify_unmapped outside
    exact ⟨step_unmappedWrite unmapped, step_unmappedRead unmapped⟩

end Sys2Proof.Machine
end

section
/-! PROOFS. The encoding of the commands (spec/30_encoding.md): decoding and encoding are inverse to each other, the
decoder agrees with R83's mask and match columns, and what the three steps of R80 make of a word written to `CMD`. -/

namespace Sys2Proof

/-! The fields of a word and the fields of a command (R81, R82) -/

/-- Each field fits its place in a word (R81). -/
structure Fields.Fits (f : Fields) : Prop where
  op : f.op < 2 ^ 8
  rd : f.rd < 2 ^ 4
  ra : f.ra < 2 ^ 4
  rb : f.rb < 2 ^ 4
  z : f.z < 2 ^ 4
  imm : f.imm < 2 ^ 8

theorem fits_fieldsOf (w : Word32) : (fieldsOf w).Fits where
  op := Nat.div_lt_of_lt_mul w.isLt
  rd := Nat.mod_lt _ (by decide)
  ra := Nat.mod_lt _ (by decide)
  rb := Nat.mod_lt _ (by decide)
  z := Nat.mod_lt _ (by decide)
  imm := Nat.mod_lt _ (by decide)

/-- A word is determined by its fields (R81). -/
theorem fieldsOf_injective : Function.Injective fieldsOf := Function.LeftInverse.injective wordOf_fieldsOf

/-- The fields read from a command's word are the command's own (R81, R85). -/
theorem fieldsOf_encode (i : Instr) : fieldsOf (encode i) = instrFields i := by
  cases i with
  | nop => exact Laws.FieldsReadBack.nop
  | srst => exact Laws.FieldsReadBack.srst
  | ldb rd len => exact Laws.FieldsReadBack.ldb rd len
  | lds rd => exact Laws.FieldsReadBack.lds rd
  | mov rd ra => exact Laws.FieldsReadBack.mov rd ra
  | stb ra => exact Laws.FieldsReadBack.stb ra
  | cmp ra rb => exact Laws.FieldsReadBack.cmp ra rb
  | adds rd ra => exact Laws.FieldsReadBack.adds rd ra
  | subs rd ra => exact Laws.FieldsReadBack.subs rd ra
  | sub rd ra => exact Laws.FieldsReadBack.sub rd ra
  | shl rd ra amt => exact Laws.FieldsReadBack.shl rd ra amt
  | shr rd ra amt => exact Laws.FieldsReadBack.shr rd ra amt
  | ctz ra => exact Laws.FieldsReadBack.ctz ra
  | setmod ra => exact Laws.FieldsReadBack.setmod ra
  | reduce rd => exact Laws.FieldsReadBack.reduce rd
  | mulmod rd ra rb => exact Laws.FieldsReadBack.mulmod rd ra rb
  | powmod rd ra rb => exact Laws.FieldsReadBack.powmod rd ra rb

/-- The format of a command (R82, R83). -/
def formatOf : Instr → Format
  | .nop | .srst => .Z
  | .ldb _ _ => .DI
  | .lds _ | .reduce _ => .D
  | .mov _ _ | .adds _ _ | .subs _ _ | .sub _ _ => .DA
  | .stb _ | .ctz _ | .setmod _ => .A
  | .cmp _ _ => .AB
  | .shl _ _ _ | .shr _ _ _ => .DAI
  | .mulmod _ _ _ | .powmod _ _ _ => .DAB

@[simp] theorem commandOf_instrFields (i : Instr) : commandOf (instrFields i) = some (formatOf i, i) := by
  cases i <;> simp [commandOf, instrFields, formatOf]

@[simp] theorem z_instrFields (i : Instr) : (instrFields i).z = 0 := by cases i <;> rfl

@[simp] theorem unusedZero_instrFields (i : Instr) : unusedZero (formatOf i) (instrFields i) = true := by
  cases i <;> rfl

theorem val_regField {n : Nat} (fits : n < 2 ^ 4) : (regField n).val = n := Nat.mod_eq_of_lt fits

theorem toNat_immField {n : Nat} (fits : n < 2 ^ 8) : (immField n).toNat = n := Nat.mod_eq_of_lt fits

/-- Fields that hold an opcode of R83, and 0 wherever its format uses nothing, are the fields of the command: the
format's own fields are read without loss. -/
theorem eq_instrFields {f : Fields} {fmt : Format} {i : Instr} (fits : f.Fits)
    (command : commandOf f = some (fmt, i)) (z : f.z = 0) (unused : unusedZero fmt f = true) :
    f = instrFields i := by
  obtain ⟨op, rd, ra, rb, _, imm⟩ := f
  subst z
  have hrd : (regField rd).val = rd := val_regField fits.rd
  have hra : (regField ra).val = ra := val_regField fits.ra
  have hrb : (regField rb).val = rb := val_regField fits.rb
  have himm : (immField imm).toNat = imm := toNat_immField fits.imm
  unfold commandOf at command
  split at command <;> rename_i opcode <;> cases command
  all_goals
    cases opcode
    simp only [unusedZero, Bool.and_eq_true, beq_iff_eq] at unused
    simp [instrFields, hrd, hra, hrb, himm, unused]

/-! The decoder (R80 step 2, R84, R86) -/

/-- A word that holds a command's fields decodes to it, LDB's length check apart (R84). -/
theorem decode_of_fieldsOf {w : Word32} {i : Instr} (fields : fieldsOf w = instrFields i) :
    decode w = if i.wf = false then .error .ldbTooLong else .ok i := by
  simp [decode, fields]

/-- A word that decodes holds the fields of a well-formed command (R86). -/
theorem decode_ok {w : Word32} {i : Instr} (decodes : decode w = .ok i) :
    fieldsOf w = instrFields i ∧ i.wf = true := by
  unfold decode at decodes
  split at decodes
  · cases decodes
  · rename_i fmt j command
    split_ifs at decodes with z unused wf
    cases decodes
    exact ⟨eq_instrFields (fits_fieldsOf w) command (not_not.mp z) (Bool.eq_true_of_not_eq_false unused),
      Bool.eq_true_of_not_eq_false wf⟩

/-- Settles O1: the word of a command holds the command's fields. -/
theorem decodeOfEncodeIsTheCommand : Obligations.DecodeOfEncodeIsTheCommand := by
  intro i wf
  rw [decode_of_fieldsOf (fieldsOf_encode i), if_neg (by simp [wf])]

/-- Settles O2: a legal word holds its command's fields, and the fields determine the word. -/
theorem encodeOfDecodeIsTheWord : Obligations.EncodeOfDecodeIsTheWord := by
  intro w i decodes
  obtain ⟨fields, wf⟩ := decode_ok decodes
  exact ⟨fieldsOf_injective ((fieldsOf_encode i).trans fields.symm), wf⟩

/-! The mask and match columns (R83) -/

/-- `AND`, field by field. -/
def Fields.and (f g : Fields) : Fields :=
  ⟨f.op &&& g.op, f.rd &&& g.rd, f.ra &&& g.ra, f.rb &&& g.rb, f.z &&& g.z, f.imm &&& g.imm⟩

/-- `AND` of two words is `AND` of their fields (R81). -/
theorem fieldsOf_and (v w : Word32) : fieldsOf (v &&& w) = (fieldsOf v).and (fieldsOf w) := by
  have digit (k n : Nat) : (v.toNat &&& w.toNat) / 2 ^ k % 2 ^ n =
      (v.toNat / 2 ^ k % 2 ^ n) &&& (w.toNat / 2 ^ k % 2 ^ n) := by
    rw [Nat.and_div_two_pow, Nat.and_mod_two_pow]
  simp only [fieldsOf, Fields.and, BitVec.toNat_and, Fields.mk.injEq]
  exact ⟨Nat.and_div_two_pow, digit 20 4, digit 16 4, digit 12 4, digit 8 4, Nat.and_mod_two_pow (n := 8)⟩

/-- The fields of a format's mask: a field the format uses is masked out, every other is kept (R82, R83). -/
def maskFields : Format → Fields
  | .Z => ⟨0xFF, 0xF, 0xF, 0xF, 0xF, 0xFF⟩
  | .D => ⟨0xFF, 0, 0xF, 0xF, 0xF, 0xFF⟩
  | .A => ⟨0xFF, 0xF, 0, 0xF, 0xF, 0xFF⟩
  | .DA => ⟨0xFF, 0, 0, 0xF, 0xF, 0xFF⟩
  | .AB => ⟨0xFF, 0xF, 0, 0, 0xF, 0xFF⟩
  | .DI => ⟨0xFF, 0, 0xF, 0xF, 0xF, 0⟩
  | .DAI => ⟨0xFF, 0, 0, 0xF, 0xF, 0⟩
  | .DAB => ⟨0xFF, 0, 0, 0, 0xF, 0xFF⟩

theorem fieldsOf_mask (i : Instr) : fieldsOf (opcodeRow i).mask = maskFields (formatOf i) := by
  cases i <;> simp [opcodeRow, formatOf, fieldsOf, maskFields]

theorem fieldsOf_pattern (i : Instr) : fieldsOf (opcodeRow i).pattern = ⟨(instrFields i).op, 0, 0, 0, 0, 0⟩ := by
  cases i <;> simp [opcodeRow, instrFields, fieldsOf]

/-- Under a format's mask the opcode is left alone exactly when `z` and the fields the format does not use are 0. -/
theorem and_maskFields_eq_iff {f : Fields} (fits : f.Fits) (fmt : Format) (op : Nat) :
    f.and (maskFields fmt) = ⟨op, 0, 0, 0, 0, 0⟩ ↔ f.op = op ∧ f.z = 0 ∧ unusedZero fmt f = true := by
  obtain ⟨hop, hrd, hra, hrb, hz, himm⟩ := fits
  have byte {n : Nat} (h : n < 2 ^ 8) : n &&& 0xFF = n := Nat.and_two_pow_sub_one_of_lt_two_pow h
  have nibble {n : Nat} (h : n < 2 ^ 4) : n &&& 0xF = n := Nat.and_two_pow_sub_one_of_lt_two_pow h
  cases fmt <;>
    simp [Fields.and, maskFields, unusedZero, byte hop, nibble hrd, nibble hra, nibble hrb, nibble hz, byte himm,
      and_assoc, and_left_comm, and_comm]

/-- A word matches a command's row exactly when it holds the command's opcode, and 0 in `z` and in the fields the
command's format does not use (R83, R86). -/
theorem and_mask_eq_pattern_iff (w : Word32) (i : Instr) :
    w &&& (opcodeRow i).mask = (opcodeRow i).pattern ↔
      (fieldsOf w).op = (instrFields i).op ∧ (fieldsOf w).z = 0 ∧ unusedZero (formatOf i) (fieldsOf w) = true := by
  rw [← fieldsOf_injective.eq_iff, fieldsOf_and, fieldsOf_mask, fieldsOf_pattern,
    and_maskFields_eq_iff (fits_fieldsOf w)]

/-- The opcode alone determines the format and the row (R83). -/
theorem commandOf_of_op {f : Fields} {i : Instr} (op : f.op = (instrFields i).op) :
    ∃ j, commandOf f = some (formatOf i, j) ∧ opcodeRow j = opcodeRow i := by
  obtain ⟨_, rd, ra, rb, z, imm⟩ := f
  subst op
  cases i <;> exact ⟨_, rfl, rfl⟩

/-- The one term that is no command is an LDB with a length above 128 (R84). -/
theorem wf_eq_false {i : Instr} (illFormed : i.wf = false) :
    (opcodeRow i).mnemonic = "LDB" ∧ 128 < (instrFields i).imm := by
  cases i with
  | ldb rd len => exact ⟨rfl, not_le.mp (of_decide_eq_false illFormed)⟩
  | _ => cases illFormed

/-- Settles O3: the row and the decoder ask the same of the fields. -/
theorem legalWordsAreTheMaskTable : Obligations.LegalWordsAreTheMaskTable := by
  constructor
  · intro w i decodes
    obtain ⟨fields, -⟩ := decode_ok decodes
    rw [and_mask_eq_pattern_iff, fields]
    exact ⟨rfl, z_instrFields i, unusedZero_instrFields i⟩
  · intro w i matchesRow
    obtain ⟨op, z, unused⟩ := (and_mask_eq_pattern_iff w i).mp matchesRow
    obtain ⟨j, command, sameRow⟩ := commandOf_of_op op
    have fields : fieldsOf w = instrFields j := eq_instrFields (fits_fieldsOf w) command z unused
    rw [decode_of_fieldsOf fields, ← sameRow]
    by_cases illFormed : j.wf = false
    · obtain ⟨ldb, tooLong⟩ := wf_eq_false illFormed
      rw [← fields] at tooLong
      exact .inr ⟨ldb, tooLong, if_pos illFormed⟩
    · exact .inl ⟨j, if_neg illFormed, rfl⟩

/-- Settles O4: eleven closed words, evaluated. -/
theorem sampleWordsDecode : Obligations.SampleWordsDecode := by
  unfold Obligations.SampleWordsDecode
  decide

namespace Machine

/-! A word written to `CMD` (R80) -/

/-- A write of a word to `CMD` runs R80 on it, the action being used up. -/
theorem step_commandWrite {s : State} {cw : Word32} {rest : List HostAction}
    (pending : s.pending = commandWrite cw :: rest) : step s = runCommand cw { s with pending := rest } :=
  step_controlWrite rfl (by decide) pending

section runCommand
variable {s : State} {cw : Word32}

theorem runCommand_legal {i : Instr} (noFault : s.block.err = false) (decodes : decode cw = .ok i) :
    runCommand cw s = exec i s := by
  rw [runCommand, if_neg (by simp [noFault]), decodes]

theorem runCommand_illegal {e : Illegal} (noFault : s.block.err = false) (refuses : decode cw = .error e) :
    runCommand cw s = .next (raise .illegalCommand cw s) := by
  rw [runCommand, if_neg (by simp [noFault]), refuses]

theorem runCommand_discards (fault : s.block.err = true) (notSrst : cw ≠ srstWord) : runCommand cw s = .next s := by
  rw [runCommand, if_pos fault, if_neg notSrst]

theorem runCommand_srst_of_fault (fault : s.block.err = true) : runCommand srstWord s = .next (resetBlock s) := by
  rw [runCommand, if_pos fault, if_pos rfl]

end runCommand

/-- Settles O32. -/
theorem stepRunsTheDecodedCommand : Obligations.StepRunsTheDecodedCommand := by
  intro s cw i rest pending noFault decodes
  rw [step_commandWrite pending]
  exact runCommand_legal noFault decodes

/-- Settles O33. -/
theorem stepFaultsOnIllegalWords : Obligations.StepFaultsOnIllegalWords := by
  intro s cw e rest pending noFault refuses
  rw [step_commandWrite pending]
  exact ⟨_, runCommand_illegal noFault refuses, tookFault_raise .illegalCommand cw _⟩

/-- Settles O34, by the word written. -/
theorem faultStateDiscardsAllButSrst : Obligations.FaultStateDiscardsAllButSrst := by
  intro s cw rest pending fault
  rw [step_commandWrite pending]
  constructor
  · exact runCommand_discards fault
  · rintro rfl
    exact ⟨_, runCommand_srst_of_fault fault, rfl⟩

/-! How a command ends (R80, R196) -/

/-- A command other than SRST takes one of its faults and does nothing else, or leaves the fault record as it was. -/
theorem exec_tookFault_or_sameFaultRecord {i : Instr} {s t : State} (h : exec i s = .next t) (notSrst : i ≠ .srst) :
    (∃ c ∈ causesOf i, TookFault c (encode i) s t) ∨ SameFaultRecord s t := by
  rcases exec_cases i s t h with ⟨c, cause, rfl⟩ | ⟨rfl, -⟩ | ⟨-, rfl⟩ | ⟨rd, v, -, rfl⟩ | ⟨ra, -, rfl⟩ |
    ⟨ra, rb, -, rfl⟩ | ⟨ra, -, -, rfl⟩ | ⟨ra, -, -, -, rfl⟩
  · exact .inl ⟨c, cause, tookFault_raise c (encode i) s⟩
  · exact absurd rfl notSrst
  all_goals exact .inr ⟨rfl, rfl, rfl⟩

/-- Settles O40: SRST clears the fault record; of the others, those that take no fault leave it as it was. -/
theorem commandCompletesOrOnlyFaults : Obligations.CommandCompletesOrOnlyFaults := by
  intro i s t noFault h
  by_cases srst : i = .srst
  · subst srst
    cases h
    exact .inl ⟨rfl, rfl, rfl⟩
  · rw [if_neg srst, if_neg srst]
    rcases exec_tookFault_or_sameFaultRecord h srst with ⟨c, -, took⟩ | ⟨err, code, info⟩
    · exact .inr ⟨c, took⟩
    · exact .inl ⟨err.trans noFault, code, info⟩

end Machine

end Sys2Proof
end

section
/-! PROOFS. Construction and movement (spec/40_construct_move.md): the value LDB reads from the operand buffer, the byte
image STB leaves there, and what LDB, LDS, MOV and STB do to the state. -/

namespace Sys2Proof.Machine

/-! The big-endian value of the buffer's first bytes (R110) -/

/-- R110's loop computes R110's sum: one more byte multiplies the weight of each byte before it by 256. -/
theorem loadBytes_eq_sum (m : Memory) (n : Nat) :
    loadBytes m n = ∑ k ∈ Finset.range n, (Memory.read m k).toNat * 256 ^ (n - 1 - k) := by
  induction n with
  | zero => rfl
  | succ n ih =>
    have weights : (∑ k ∈ Finset.range n, (Memory.read m k).toNat * 256 ^ (n - 1 - k)) * 256 =
        ∑ k ∈ Finset.range n, (Memory.read m k).toNat * 256 ^ (n - k) := by
      rw [Finset.sum_mul]
      refine Finset.sum_congr rfl fun k below => ?_
      have weight : n - k = n - 1 - k + 1 := by
        have := Finset.mem_range.mp below
        omega
      rw [weight, Nat.pow_succ, Nat.mul_assoc]
    rw [loadBytes, ih, weights, Finset.sum_range_succ, Nat.add_sub_cancel, Nat.sub_self, Nat.pow_zero, Nat.mul_one]

/-- The value needs more than `b` bytes exactly when a byte before the last `b` is nonzero (R110). -/
theorem pow_le_loadBytes_iff (m : Memory) (b n : Nat) :
    256 ^ b ≤ loadBytes m n ↔ ∃ k, k + b < n ∧ Memory.read m k ≠ 0#8 := by
  induction n generalizing b with
  | zero => simp [loadBytes]
  | succ n ih =>
    rw [loadBytes]
    cases b with
    | zero =>
      have nonzero : Memory.read m n ≠ 0#8 ↔ 1 ≤ (Memory.read m n).toNat := by
        rw [ne_eq, ← BitVec.toNat_inj, BitVec.toNat_ofNat]
        omega
      have split : 256 ^ 0 ≤ loadBytes m n * 256 + (Memory.read m n).toNat ↔
          256 ^ 0 ≤ loadBytes m n ∨ Memory.read m n ≠ 0#8 := by
        rw [nonzero, Nat.pow_zero]
        omega
      exact split.trans ((or_congr_left (ih 0)).trans Nat.exists_lt_succ_right.symm)
    | succ b =>
      have shift : 256 ^ (b + 1) ≤ loadBytes m n * 256 + (Memory.read m n).toNat ↔ 256 ^ b ≤ loadBytes m n := by
        have := (Memory.read m n).isLt
        rw [Nat.pow_succ]
        omega
      simp only [shift, ih, ← Nat.add_assoc, Nat.add_lt_add_iff_right]

/-- `2^512` is the capacity of 64 bytes (R7, R110). -/
theorem two_pow_512_eq : 2 ^ 512 = 256 ^ 64 := by rw [show 256 = 2 ^ 8 from rfl, ← Nat.pow_mul]

/-! The byte image of a register (R113) -/

/-- Byte `k` of the image is a base-256 digit of the value, the first byte most significant (R113). -/
theorem imageByte_toNat (v : Wide) (k : Nat) : (imageByte v k).toNat = v.toNat / 2 ^ (1016 - 8 * k) % 256 := by
  rw [imageByte, BitVec.extractLsb'_toNat, Nat.shiftRight_eq_div_pow]

set_option exponentiation.threshold 1024 in
/-- The first `n` bytes of a stored image load as the `8 * n` most significant bits of the value (R110, R113). -/
theorem loadBytes_storeImage (v : Wide) {m : Memory} (wf : Memory.wf m = true) {n : Nat} (inside : n ≤ Config.bufBytes) :
    loadBytes (storeImage v Config.bufBytes m) n = v.toNat / 2 ^ (1024 - 8 * n) := by
  induction n with
  | zero => exact (Nat.div_eq_of_lt v.isLt).symm
  | succ n ih =>
    have byte : Memory.read (storeImage v Config.bufBytes m) n = imageByte v n := by
      rw [read_storeImage v le_rfl wf, if_pos (Nat.lt_of_succ_le inside)]
    have before : 1024 - 8 * n = 1016 - 8 * n + 8 := by
      simp only [Config.bufBytes] at inside
      omega
    have after : 1024 - 8 * (n + 1) = 1016 - 8 * n := by omega
    rw [loadBytes, ih (Nat.le_of_succ_le inside), byte, imageByte_toNat, before, after, Nat.pow_add,
      ← Nat.div_div_eq_div_mul, Nat.div_add_mod']

/-- The whole stored image loads as the value (R110, R113). -/
theorem loadBytes_storeImage_all (v : Wide) {m : Memory} (wf : Memory.wf m = true) :
    loadBytes (storeImage v Config.bufBytes m) Config.bufBytes = v.toNat := by
  rw [loadBytes_storeImage v wf le_rfl, show 1024 - 8 * Config.bufBytes = 0 from rfl, Nat.pow_zero, Nat.div_one]

/-! LDB (R110) -/

section ldb
variable {rd : Reg} {len : Byte} {s : State}

theorem execLdb_loads {x : Nat} (legal : len.toNat ≤ Config.bufBytes) (loaded : loadBytes s.block.buf len.toNat = x)
    (fits : x < 2 ^ 512) : execLdb rd len s = .next (s.setReg rd (BitVec.ofNat 1024 x)) := by
  rw [execLdb, loaded, if_neg (Nat.not_lt.mpr legal), if_neg (Nat.not_le.mpr fits), complete_ok]

theorem execLdb_tooWide (legal : len.toNat ≤ Config.bufBytes) (wide : 2 ^ 512 ≤ loadBytes s.block.buf len.toNat) :
    execLdb rd len s = .next (raise .inputTooWide (encode (.ldb rd len)) s) := by
  rw [execLdb, if_neg (Nat.not_lt.mpr legal), if_pos wide, complete_error]

/-- A length above 128 is the model's own choice (notes/assumptions/9.md). -/
theorem execLdb_tooLong (long : Config.bufBytes < len.toNat) :
    execLdb rd len s = .next (raise .illegalCommand (encode (.ldb rd len)) s) := by
  rw [execLdb, if_pos long, complete_error]

end ldb

set_option exponentiation.threshold 1024 in
/-- A value below `2^512` fits a wide register (R7). -/
theorem wide_ofNat_toNat {x : Nat} (fits : x < 2 ^ 512) : (BitVec.ofNat 1024 x).toNat = x := by
  rw [BitVec.toNat_ofNat]
  exact Nat.mod_eq_of_lt (fits.trans (by decide))

/-- Settles O7, by the three ways LDB ends, with the sum of R110 replaced by the loop that computes it. -/
theorem ldbLoadsBigEndianBytes : Obligations.LdbLoadsBigEndianBytes := by
  intro rd len s
  rw [← loadBytes_eq_sum]
  intro value
  refine ⟨?_, fun legal fits => ?_, fun legal wide => ?_, ?_, fun long => ?_⟩
  · simp only [encode_toNat, instrFields]
    omega
  · refine ⟨_, execLdb_loads legal rfl fits, ?_, onlyReg_setReg rd _ s⟩
    rw [reg_setReg_same, wide_ofNat_toNat fits]
  · exact ⟨_, execLdb_tooWide legal wide, tookFault_raise .inputTooWide _ s⟩
  · rw [two_pow_512_eq]
    exact pow_le_loadBytes_iff s.block.buf 64 len.toNat
  · exact ⟨_, execLdb_tooLong long, tookFault_raise .illegalCommand _ s⟩

/-! LDS (R111) -/

/-- The scalar is the lowest limb (R111). -/
theorem limb_scalarWide_lowest (c : Word32) : limb (scalarWide c) 31 = c := by
  apply BitVec.eq_of_toNat_eq
  rw [limb_toNat_eq_digit (scalarWide c) (i := 0) (by decide), scalarWide_toNat, Nat.pow_zero, Nat.div_one]
  exact Nat.mod_eq_of_lt c.isLt

/-- The limbs above the lowest are 0 (R111). -/
theorem limb_scalarWide_upper (c : Word32) {j : Nat} (upper : j < 31) : limb (scalarWide c) j = 0#32 := by
  have below : c.toNat < limbBase ^ (31 - j) :=
    c.isLt.trans_le (Nat.le_self_pow (by omega) limbBase)
  have index : j = 31 - (31 - j) := by omega
  apply BitVec.eq_of_toNat_eq
  rw [index, limb_toNat_eq_digit (scalarWide c) (by omega), scalarWide_toNat, Nat.div_eq_of_lt below]
  rfl

/-- Settles O8: the register holds the zero-extended scalar, whose limbs are known. -/
theorem ldsConstructsTheScalar : Obligations.LdsConstructsTheScalar := by
  intro rd s
  constructor
  · simp only [encode_toNat, instrFields]
    omega
  · refine ⟨s.setReg rd (scalarWide s.block.scl), rfl, ?_⟩
    rw [reg_setReg_same]
    exact ⟨scalarWide_toNat _, limb_scalarWide_lowest _, fun j => limb_scalarWide_upper _, onlyReg_setReg rd _ s⟩

/-! MOV (R112) -/

/-- Settles O9. -/
theorem movCopiesTheRegister : Obligations.MovCopiesTheRegister := by
  intro rd ra s
  constructor
  · simp only [encode_toNat, instrFields]
    omega
  · exact ⟨s.setReg rd (s.reg ra), rfl, reg_setReg_same s rd _, onlyReg_setReg rd _ s⟩

/-! STB (R113), and LDB after it -/

/-- STB completes with the register's image stored, and writes the buffer alone (R113). -/
theorem execStb_next (ra : Reg) (s : State) : ∃ t, execStb ra s = .next t ∧
    t.block.buf = storeImage (s.reg ra) Config.bufBytes s.block.buf ∧ OnlyBuf s t := by
  rw [execStb, complete_ok]
  generalize storeImage (s.reg ra) Config.bufBytes s.block.buf = m
  exact ⟨_, rfl, rfl, onlyBuf_update s m⟩

/-- Settles O10, from what the buffer reads as after the image is stored. -/
theorem stbStoresTheBigEndianImage : Obligations.StbStoresTheBigEndianImage := by
  intro ra s wf
  constructor
  · simp only [encode_toNat, instrFields]
    omega
  · obtain ⟨t, stores, buf, only⟩ := execStb_next ra s
    refine ⟨t, stores, fun k stored => ?_, fun k outside => ?_, only⟩
    · rw [buf, read_storeImage _ le_rfl wf, if_pos stored, imageByte_toNat]
    · rw [buf, read_storeImage _ le_rfl wf, if_neg (Nat.not_lt.mpr outside)]

/-- Settles O49: the stored image loads as the value, so LDB takes no fault and writes the value STB read. -/
theorem stbThenLdbMovesTheValue : Obligations.StbThenLdbMovesTheValue := by
  intro rd ra s wf fits
  obtain ⟨t, stores, buf, -, -, -, -, -, ⟨err, -⟩, -⟩ := execStb_next ra s
  have length : (128 : Byte).toNat = Config.bufBytes := rfl
  have loaded : loadBytes t.block.buf (128 : Byte).toNat = (s.reg ra).toNat := by
    rw [buf, length, loadBytes_storeImage_all _ wf]
  refine ⟨t, _, stores, execLdb_loads length.le loaded fits, ?_, err⟩
  rw [reg_setReg_same, BitVec.ofNat_toNat, BitVec.setWidth_eq]

end Sys2Proof.Machine
end

section
/-! PROOFS. Comparison, add and subtract (spec/41_compare_addsub.md): the limb algorithms of R121 and R128 give the
integer results, and what CMP, ADDS, SUBS and SUB do to the state. -/

namespace Sys2Proof.Machine

/-! Lists of limbs, side by side (R121, R128) -/

/-- Two lists of equally many limbs, each limb below `2^32` (R7). -/
abbrev PairedLimbs : List Nat → List Nat → Prop := List.Forall₂ fun x y => x < limbBase ∧ y < limbBase

theorem pairedLimbs_limbsMs (a b : Wide) : PairedLimbs (limbsMs a) (limbsMs b) := by
  rw [PairedLimbs, limbsMs, limbsMs, List.forall₂_map_left_iff, List.forall₂_map_right_iff, List.forall₂_same]
  exact fun j _ => ⟨(limb a j).isLt, (limb b j).isLt⟩

theorem pairedLimbs_limbsLs (a b : Wide) : PairedLimbs (limbsLs a) (limbsLs b) := by
  rw [limbsLs_eq_reverse, limbsLs_eq_reverse, PairedLimbs, List.forall₂_reverse_iff]
  exact pairedLimbs_limbsMs a b

/-- A wide register has 32 limbs (R7). -/
@[simp] theorem limbsLs_length (v : Wide) : (limbsLs v).length = 32 := by
  rw [limbsLs, List.length_map, List.length_range]

set_option exponentiation.threshold 1024 in
/-- The 32 limbs together have the 1024 bits of a wide register (R7). -/
theorem limbBase_pow_32 : limbBase ^ 32 = 2 ^ 1024 := by rw [limbBase, ← Nat.pow_mul]

/-! The comparator (R121) -/

/-- A difference in the limbs already read decides the order, whatever limbs follow (R121). -/
theorem ofLimbsMsFrom_lt {xs ys : List Nat} (limbs : PairedLimbs xs ys) {acc acc' : Nat} (less : acc < acc') :
    ofLimbsMsFrom acc xs < ofLimbsMsFrom acc' ys := by
  induction limbs generalizing acc acc' with
  | nil => exact less
  | cons bounds _ ih =>
    apply ih
    unfold limbBase at *
    omega

/-- The scan compares the numerals that the limbs make after the limbs already read, which are the same (R121). -/
theorem compareLimbs_eq {xs ys : List Nat} (limbs : PairedLimbs xs ys) (acc : Nat) :
    compareLimbs xs ys =
      (decide (ofLimbsMsFrom acc xs < ofLimbsMsFrom acc ys), decide (ofLimbsMsFrom acc xs = ofLimbsMsFrom acc ys)) := by
  induction limbs generalizing acc with
  | nil => simp [compareLimbs, ofLimbsMsFrom]
  | @cons x y xs ys bounds tails ih =>
    rw [compareLimbs, ofLimbsMsFrom, ofLimbsMsFrom]
    rcases lt_trichotomy x y with less | rfl | greater
    · have : ofLimbsMsFrom (acc * limbBase + x) xs < ofLimbsMsFrom (acc * limbBase + y) ys :=
        ofLimbsMsFrom_lt tails (by omega)
      simp [less, less.ne, this, this.ne]
    · simp [ih (acc * limbBase + x)]
    · have : ofLimbsMsFrom (acc * limbBase + y) ys < ofLimbsMsFrom (acc * limbBase + x) xs :=
        ofLimbsMsFrom_lt (tails.flip.imp fun _ _ h => h.symm) (by omega)
      simp [greater.ne', greater.not_gt, this.ne', this.not_gt]

theorem compareEq_eq_decide_toNat (a b : Wide) : compareEq a b = decide (a.toNat = b.toNat) :=
  decide_eq_decide.mpr BitVec.toNat_inj.symm

/-- Settles O27: the scan compares the numerals of the two limb lists, which are the two values. -/
theorem limbScanIsNumericOrder : Obligations.LimbScanIsNumericOrder := by
  intro a b
  rw [compareLimbs_eq (pairedLimbs_limbsMs a b) 0, ← ofLimbsMs, ← ofLimbsMs, ofLimbsMs_limbsMs, ofLimbsMs_limbsMs,
    compareLt, compareEq_eq_decide_toNat]

/-! The adder (R128) -/

/-- Adding the carry into a numeral adds it into the lowest limb and carries the quotient on (R128). -/
theorem ofLimbsLs_cons_add (x c : Nat) (xs : List Nat) :
    (ofLimbsLs (x :: xs) + c) % limbBase = (x + c) % limbBase ∧
    (ofLimbsLs (x :: xs) + c) / limbBase = ofLimbsLs xs + (x + c) / limbBase := by
  rw [ofLimbsLs, limbBase]
  omega

theorem ofLimbsLs_addLimbs (xs : List Nat) (c : Nat) :
    ofLimbsLs (addLimbs xs c).1 = (ofLimbsLs xs + c) % limbBase ^ xs.length := by
  induction xs generalizing c with
  | nil => exact (Nat.mod_one _).symm
  | cons x xs ih =>
    obtain ⟨low, high⟩ := ofLimbsLs_cons_add x c xs
    rw [List.length_cons, Nat.pow_succ', Nat.mod_mul, low, high, ← ih]
    rfl

theorem addLimbs_carry (xs : List Nat) (c : Nat) :
    (addLimbs xs c).2 = (ofLimbsLs xs + c) / limbBase ^ xs.length := by
  induction xs generalizing c with
  | nil => simp [addLimbs, ofLimbsLs]
  | cons x xs ih =>
    obtain ⟨-, high⟩ := ofLimbsLs_cons_add x c xs
    rw [List.length_cons, Nat.pow_succ', ← Nat.div_div_eq_div_mul, high, ← ih]
    rfl

set_option exponentiation.threshold 1024 in
/-- Settles O28: the limbs are the remainder of the sum by `2^1024` and the last carry its quotient, at most 1. -/
theorem rippleCarryIsTheSum : Obligations.RippleCarryIsTheSum := by
  intro a c
  rw [ofLimbsLs_addLimbs, addLimbs_carry, limbsLs_length, ofLimbsLs_limbsLs, limbBase_pow_32]
  refine ⟨rfl, ?_⟩
  have := a.isLt
  have := c.isLt
  split <;> omega

/-! The subtractors (R128) -/

/-- The borrow out is 1 exactly when the numeral is less than what is subtracted from it (R128). -/
theorem subRegLimbs_borrow {xs ys : List Nat} (limbs : PairedLimbs xs ys) {b : Nat} (bit : b ≤ 1) :
    (subRegLimbs xs ys b).2 = if ofLimbsLs xs < ofLimbsLs ys + b then 1 else 0 := by
  induction limbs generalizing b with
  | nil => obtain rfl | rfl := Nat.le_one_iff_eq_zero_or_eq_one.mp bit <;> rfl
  | @cons x y xs ys bounds _ ih =>
    rw [subRegLimbs, ih (by split <;> decide), ofLimbsLs, ofLimbsLs]
    refine if_congr ?_ rfl rfl
    unfold limbBase at *
    split <;> omega

/-- Nothing is lost: the numeral and the borrow out, at its weight, are what is subtracted and the result (R128). -/
theorem subRegLimbs_balance {xs ys : List Nat} (limbs : PairedLimbs xs ys) {b : Nat} (bit : b ≤ 1) :
    ofLimbsLs xs + limbBase ^ xs.length * (subRegLimbs xs ys b).2 =
      ofLimbsLs ys + b + ofLimbsLs (subRegLimbs xs ys b).1 := by
  induction limbs generalizing b with
  | nil => simp [subRegLimbs, ofLimbsLs]
  | @cons x y xs ys bounds _ ih =>
    have bit' : (if (x : Int) - y - b < 0 then 1 else 0) ≤ 1 := by split <;> decide
    have limb : x + limbBase * (if (x : Int) - y - b < 0 then 1 else 0) =
        y + b + (((x : Int) - y - b) % limbBase).toNat := by
      unfold limbBase at *
      split <;> omega
    have rest := ih bit'
    simp only [subRegLimbs, ofLimbsLs, List.length_cons, Nat.pow_succ']
    linear_combination limb + limbBase * rest

set_option exponentiation.threshold 1024 in
/-- The register subtractor gives the difference modulo `2^1024`, its last borrow the underflow (R128). -/
theorem subRegLimbs_limbsLs (a b : Wide) :
    ofLimbsLs (subRegLimbs (limbsLs a) (limbsLs b) 0).1 = (a.toNat + 2 ^ 1024 - b.toNat) % 2 ^ 1024 ∧
    (subRegLimbs (limbsLs a) (limbsLs b) 0).2 = if a.toNat < b.toNat then 1 else 0 := by
  have limbs := pairedLimbs_limbsLs a b
  have borrow := subRegLimbs_borrow limbs (Nat.zero_le 1)
  have balance := subRegLimbs_balance limbs (Nat.zero_le 1)
  rw [borrow, limbsLs_length, limbBase_pow_32] at balance
  simp only [ofLimbsLs_limbsLs, Nat.add_zero] at borrow balance
  refine ⟨?_, borrow⟩
  have := a.isLt
  have := b.isLt
  split at balance <;> omega

/-- Subtracting a scalar limb by limb is subtracting zeros with the scalar borrowed (R128). -/
theorem subScalarLimbs_eq_subRegLimbs_zeros (xs : List Nat) {c : Nat} (fits : c ≤ limbBase) :
    subScalarLimbs xs c = subRegLimbs xs (List.replicate xs.length 0) c := by
  induction xs generalizing c with
  | nil => rfl
  | cons x xs ih =>
    have limb : (((x : Int) - (0 : Nat) - c) % limbBase).toNat = (x + limbBase - c) % limbBase := by
      unfold limbBase at *
      omega
    have sign : (x : Int) - (0 : Nat) - c < 0 ↔ x < c := by omega
    have rest := ih (c := if x < c then 1 else 0) (by split <;> decide)
    simp only [subScalarLimbs, List.length_cons, List.replicate_succ, subRegLimbs, limb, sign, rest]

/-- A scalar in limbs: itself, then zeros (R111, R128). -/
theorem limbsLs_scalarWide (c : Word32) : limbsLs (scalarWide c) = c.toNat :: List.replicate 31 0 := by
  have upper : ∀ i ∈ List.range 31, (limb (scalarWide c) (31 - i.succ)).toNat = 0 := fun i _ => by
    rw [limb_scalarWide_upper c (by omega), BitVec.toNat_zero]
  rw [limbsLs, List.range_succ_eq_map, List.map_cons, limb_scalarWide_lowest, List.map_map,
    Function.comp_def, List.map_congr_left upper, List.map_const', List.length_range]

/-- The scalar subtractor is the register subtractor on the zero-extended scalar (R128). -/
theorem subScalarLimbs_limbsLs (a : Wide) (c : Word32) :
    subScalarLimbs (limbsLs a) c.toNat = subRegLimbs (limbsLs a) (limbsLs (scalarWide c)) 0 := by
  obtain ⟨x, xs, limbs⟩ := List.exists_cons_of_length_eq_add_one (limbsLs_length a)
  have length : (x :: xs).length = 32 := limbs ▸ limbsLs_length a
  rw [subScalarLimbs_eq_subRegLimbs_zeros _ c.isLt.le, limbsLs_scalarWide, limbs, length]
  simp [subRegLimbs, List.replicate_succ]

/-- Settles O29: a scalar is subtracted as the register value it extends to. -/
theorem rippleBorrowIsTheDifference : Obligations.RippleBorrowIsTheDifference := by
  refine ⟨fun a c => ?_, subRegLimbs_limbsLs⟩
  rw [subScalarLimbs_limbsLs, ← scalarWide_toNat c]
  exact subRegLimbs_limbsLs a (scalarWide c)

/-! CMP (R120) -/

/-- Settles O11. -/
theorem cmpWritesTheFlags : Obligations.CmpWritesTheFlags := by
  intro ra rb s
  constructor
  · simp only [encode_toNat, instrFields]
    omega
  · refine ⟨_, rfl, decide_eq_true_iff, ?_, onlyFlags_update s _ _⟩
    rw [compareEq_eq_decide_toNat, decide_eq_true_iff]

/-! ADDS, SUBS and SUB: a computed value for `rd`, or a fault (R125 to R127) -/

section computed
variable {cw : Word32} {rd : Reg} {s : State} {r : Except Cause Wide}

theorem complete_map_ok {v : Wide} (ok : r = .ok v) :
    complete cw s (r.map (s.setReg rd)) = .next (s.setReg rd v) := by
  rw [ok, Except.map, complete_ok]

theorem complete_map_error {c : Cause} (fault : r = .error c) :
    complete cw s (r.map (s.setReg rd)) = .next (raise c cw s) := by
  rw [fault, Except.map, complete_error]

end computed

set_option exponentiation.threshold 1024 in
/-- Settles O12, by whether the sum fits a wide register. -/
theorem addsAddsTheScalarOrFaults : Obligations.AddsAddsTheScalarOrFaults := by
  intro rd ra s
  refine ⟨?_, fun fits => ?_, fun overflow => ?_⟩
  · simp only [encode_toNat, instrFields]
    omega
  · refine ⟨_, complete_map_ok (addScalar_ok fits), ?_, onlyReg_setReg rd _ s⟩
    rw [reg_setReg_same, BitVec.toNat_ofNat, Nat.mod_eq_of_lt fits]
  · exact ⟨_, complete_map_error (addScalar_overflow overflow), tookFault_raise _ _ s⟩

/-- A command that subtracts exactly: the difference in `rd` alone, or `SubUnderflow` alone (R126, R127). -/
theorem complete_subExact (cw : Word32) (rd : Reg) (a b : Wide) (s : State) :
    (b.toNat ≤ a.toNat → ∃ t, complete cw s ((subExact a b).map (s.setReg rd)) = .next t ∧
      (t.reg rd).toNat = a.toNat - b.toNat ∧ OnlyReg rd s t) ∧
    (a.toNat < b.toNat → ∃ t, complete cw s ((subExact a b).map (s.setReg rd)) = .next t ∧
      TookFault .subUnderflow cw s t) := by
  refine ⟨fun fits => ?_, fun underflow => ?_⟩
  · refine ⟨_, complete_map_ok (subExact_ok fits), ?_, onlyReg_setReg rd _ s⟩
    rw [reg_setReg_same, BitVec.toNat_ofNat, Nat.mod_eq_of_lt (Nat.sub_lt_of_lt a.isLt)]
  · exact ⟨_, complete_map_error (subExact_underflow underflow), tookFault_raise _ _ s⟩

/-- Settles O13. -/
theorem subsSubtractsTheScalarOrFaults : Obligations.SubsSubtractsTheScalarOrFaults := by
  intro rd ra s
  constructor
  · simp only [encode_toNat, instrFields]
    omega
  · rw [← scalarWide_toNat s.block.scl]
    exact complete_subExact _ rd (s.reg ra) (scalarWide s.block.scl) s

/-- Settles O14. -/
theorem subSubtractsInPlaceOrFaults : Obligations.SubSubtractsInPlaceOrFaults := by
  intro rd ra s
  constructor
  · simp only [encode_toNat, instrFields]
    omega
  · exact complete_subExact _ rd (s.reg rd) (s.reg ra) s

end Sys2Proof.Machine
end

section
/-! PROOFS. Shift and scan (spec/42_shift_scan.md): the limb formulas of R133 are the shifts of R130 and R131, and what
SHL, SHR and CTZ do to the state. -/

namespace Sys2Proof.Machine

/-! A limb cut in two at the shift amount (R133) -/

/-- The shift amount cuts the 32 bits of a limb into `s` bits and the other `32 - s` (R133). -/
theorem two_pow_mul_two_pow_sub {s : Nat} (amount : s ≤ 32) : 2 ^ s * 2 ^ (32 - s) = limbBase := by
  rw [← Nat.pow_add, Nat.add_sub_cancel' amount, limbBase]

/-- A shifted limb is what moves into the limb above it and what stays (R130, R133). -/
theorem limb_mul_two_pow {s : Nat} (amount : s ≤ 32) (x : Nat) :
    x * 2 ^ s = x / 2 ^ (32 - s) * limbBase + x * 2 ^ s % limbBase := by
  have moves : x * 2 ^ s / limbBase = x / 2 ^ (32 - s) := by
    rw [← two_pow_mul_two_pow_sub amount, Nat.mul_comm x, Nat.mul_div_mul_left _ _ (Nat.two_pow_pos s)]
  rw [← moves, Nat.div_add_mod']

/-- A limb joined to the limbs `acc` above it, shifted right: the low `s` bits of `acc` move into it (R131, R133). -/
theorem mul_limbBase_add_div_two_pow {s : Nat} (amount : s ≤ 32) (acc x : Nat) :
    (acc * limbBase + x) / 2 ^ s = acc / 2 ^ s * limbBase + (x / 2 ^ s + acc % 2 ^ s * 2 ^ (32 - s)) := by
  have parts := (Nat.div_add_mod acc (2 ^ s)).symm
  calc (acc * limbBase + x) / 2 ^ s = (x + 2 ^ s * (acc * 2 ^ (32 - s))) / 2 ^ s := by
        rw [← two_pow_mul_two_pow_sub amount, Nat.mul_left_comm, Nat.add_comm]
    _ = x / 2 ^ s + acc * 2 ^ (32 - s) := Nat.add_mul_div_left x _ (Nat.two_pow_pos s)
    _ = acc / 2 ^ s * limbBase + (x / 2 ^ s + acc % 2 ^ s * 2 ^ (32 - s)) := by
        rw [← two_pow_mul_two_pow_sub amount]
        linear_combination 2 ^ (32 - s) * parts

/-! Limbs, most significant first, after the limbs already read (R11) -/

theorem ofLimbsMsFrom_eq_add (acc : Nat) (xs : List Nat) :
    ofLimbsMsFrom acc xs = acc * limbBase ^ xs.length + ofLimbsMs xs := by
  induction xs using List.reverseRecOn with
  | nil => simp [ofLimbsMsFrom, ofLimbsMs]
  | append_singleton xs x ih =>
    rw [ofLimbsMs, ofLimbsMsFrom_concat, ofLimbsMsFrom_concat, ← ofLimbsMs, ih, List.length_append,
      List.length_singleton, Nat.pow_succ]
    ring

theorem ofLimbsMs_lt {xs : List Nat} (limbs : ∀ x ∈ xs, x < limbBase) : ofLimbsMs xs < limbBase ^ xs.length := by
  rw [← List.reverse_reverse xs, ofLimbsMs_reverse, ofLimbsLs_eq_ofDigits, List.length_reverse (as := xs.reverse)]
  exact Nat.ofDigits_lt_base_pow_length (by decide) fun x hx => limbs x (List.mem_reverse.mp hx)

@[simp] theorem limbsMs_length (v : Wide) : (limbsMs v).length = 32 := by
  rw [limbsMs, List.length_map, List.length_range]

theorem lt_limbBase_of_mem_limbsMs {v : Wide} {x : Nat} (mem : x ∈ limbsMs v) : x < limbBase := by
  obtain ⟨j, -, rfl⟩ := List.mem_map.mp mem
  exact BitVec.isLt _

/-! The left shifter (R133) -/

/-- With the bits the first limb loses put back above it, the formula shifts the whole numeral: nothing is lost. -/
theorem ofLimbsMsFrom_shlLimbsBy {s : Nat} (amount : s ≤ 32) (acc : Nat) (xs : List Nat) :
    ofLimbsMsFrom (acc * 2 ^ s + xs.headD 0 / 2 ^ (32 - s)) (shlLimbsBy s xs) = ofLimbsMsFrom acc xs * 2 ^ s := by
  induction xs generalizing acc with
  | nil => simp [shlLimbsBy, ofLimbsMsFrom]
  | cons x xs ih =>
    rw [shlLimbsBy, ofLimbsMsFrom, ofLimbsMsFrom, ← ih, List.headD_cons]
    congr 1
    linear_combination (limb_mul_two_pow amount x).symm

@[simp] theorem shlLimbsBy_length (s : Nat) (xs : List Nat) : (shlLimbsBy s xs).length = xs.length := by
  induction xs with
  | nil => rfl
  | cons x xs ih => rw [shlLimbsBy, List.length_cons, List.length_cons, ih]

/-- The two terms of the formula do not overlap, so their sum is a limb (R133). -/
theorem shl_terms_lt_limbBase {s : Nat} (amount : s ≤ 32) (x : Nat) {below : Nat} (isLimb : below < limbBase) :
    x * 2 ^ s % limbBase + below / 2 ^ (32 - s) < limbBase := by
  rw [← two_pow_mul_two_pow_sub amount] at isLimb ⊢
  have high : x % 2 ^ (32 - s) < 2 ^ (32 - s) := Nat.mod_lt _ (Nat.two_pow_pos _)
  have low : below / 2 ^ (32 - s) < 2 ^ s := Nat.div_lt_of_lt_mul (Nat.mul_comm _ _ ▸ isLimb)
  calc x * 2 ^ s % (2 ^ s * 2 ^ (32 - s)) + below / 2 ^ (32 - s)
      = 2 ^ s * (x % 2 ^ (32 - s)) + below / 2 ^ (32 - s) := by rw [Nat.mul_comm x, Nat.mul_mod_mul_left]
    _ < 2 ^ s * (x % 2 ^ (32 - s) + 1) := Nat.add_lt_add_left low _
    _ ≤ 2 ^ s * 2 ^ (32 - s) := Nat.mul_le_mul_left _ high

theorem lt_limbBase_of_mem_shlLimbsBy {s : Nat} (amount : s ≤ 32) {xs : List Nat}
    (limbs : ∀ x ∈ xs, x < limbBase) : ∀ y ∈ shlLimbsBy s xs, y < limbBase := by
  induction xs with
  | nil => simp [shlLimbsBy]
  | cons x xs ih =>
    obtain ⟨-, tail⟩ := List.forall_mem_cons.mp limbs
    have next : xs.headD 0 < limbBase := by
      cases xs with
      | nil => decide
      | cons x' _ => exact tail x' List.mem_cons_self
    rw [shlLimbsBy, List.forall_mem_cons]
    exact ⟨shl_terms_lt_limbBase amount x next, ih tail⟩

/-- The formula drops the bits that leave the first limb, so the shift is modulo the capacity of the limbs. -/
theorem ofLimbsMs_shlLimbsBy {s : Nat} (amount : s ≤ 32) {xs : List Nat} (limbs : ∀ x ∈ xs, x < limbBase) :
    ofLimbsMs (shlLimbsBy s xs) = ofLimbsMs xs * 2 ^ s % limbBase ^ xs.length := by
  have shifted := ofLimbsMsFrom_shlLimbsBy amount 0 xs
  have below := ofLimbsMs_lt (lt_limbBase_of_mem_shlLimbsBy amount limbs)
  rw [shlLimbsBy_length] at below
  rw [ofLimbsMsFrom_eq_add, shlLimbsBy_length, ← ofLimbsMs] at shifted
  rw [← shifted, Nat.mul_add_mod', Nat.mod_eq_of_lt below]

/-! The right shifter (R133) -/

/-- The formula shifts the whole numeral right when `prev` has the low bits of the limbs already read. -/
theorem ofLimbsMsFrom_shrLimbsBy {s : Nat} (amount : s ≤ 32) {acc prev : Nat} (lowBits : acc % 2 ^ s = prev % 2 ^ s)
    (xs : List Nat) : ofLimbsMsFrom (acc / 2 ^ s) (shrLimbsBy s prev xs) = ofLimbsMsFrom acc xs / 2 ^ s := by
  induction xs generalizing acc prev with
  | nil => rfl
  | cons x xs ih =>
    have moves : prev * 2 ^ (32 - s) % limbBase = acc % 2 ^ s * 2 ^ (32 - s) := by
      rw [← two_pow_mul_two_pow_sub amount, Nat.mul_mod_mul_right, lowBits]
    have lowBits' : (acc * limbBase + x) % 2 ^ s = x % 2 ^ s := by
      rw [← two_pow_mul_two_pow_sub amount, Nat.mul_left_comm, Nat.mul_add_mod]
    rw [shrLimbsBy, ofLimbsMsFrom, ofLimbsMsFrom, moves, ← mul_limbBase_add_div_two_pow amount, ih lowBits']

set_option exponentiation.threshold 1024 in
/-- Settles O30: a shift by 0 leaves the limbs, any other is the two-term formula at each limb. -/
theorem limbShiftsAreTheShifts : Obligations.LimbShiftsAreTheShifts := by
  intro v s amount
  rw [shlLimbs, shrLimbs]
  split
  case isTrue zero =>
    rw [zero, ofLimbsMs_limbsMs, Nat.pow_zero, Nat.mul_one, Nat.div_one]
    exact ⟨(Nat.mod_eq_of_lt v.isLt).symm, rfl⟩
  case isFalse =>
    constructor
    · rw [ofLimbsMs_shlLimbsBy amount.le fun _ => lt_limbBase_of_mem_limbsMs, limbsMs_length, limbBase_pow_32,
        ofLimbsMs_limbsMs]
    · have shifted := ofLimbsMsFrom_shrLimbsBy amount.le (rfl : 0 % 2 ^ s = 0 % 2 ^ s) (limbsMs v)
      rwa [Nat.zero_div, ← ofLimbsMs, ← ofLimbsMs, ofLimbsMs_limbsMs] at shifted

/-! SHL and SHR: a shifted value for `rd`, or `ShiftRange` (R130, R131) -/

set_option exponentiation.threshold 1024 in
/-- A command that shifts: its value in `rd` alone for a legal amount, or `ShiftRange` alone (R130, R131). -/
theorem complete_shift {cw : Word32} {rd : Reg} {amt : Byte} {x : Nat} {s : State} {r : Except Cause State}
    (result : r = if shiftBound ≤ amt.toNat then .error .shiftRange else .ok (s.setReg rd (BitVec.ofNat 1024 x))) :
    (amt.toNat < 32 → ∃ t, complete cw s r = .next t ∧ (t.reg rd).toNat = x % 2 ^ 1024 ∧ OnlyReg rd s t) ∧
    (32 ≤ amt.toNat → ∃ t, complete cw s r = .next t ∧ TookFault .shiftRange cw s t) := by
  rw [result, shiftBound]
  refine ⟨fun legal => ?_, fun outOfRange => ?_⟩
  · rw [if_neg legal.not_ge, complete_ok]
    refine ⟨_, rfl, ?_, onlyReg_setReg rd _ s⟩
    rw [reg_setReg_same, BitVec.toNat_ofNat]
  · rw [if_pos outOfRange, complete_error]
    exact ⟨_, rfl, tookFault_raise _ _ s⟩

/-- Settles O15. -/
theorem shlShiftsLeftOrFaults : Obligations.ShlShiftsLeftOrFaults := by
  intro rd ra amt s
  constructor
  · simp only [encode_toNat, instrFields]
    omega
  · exact complete_shift rfl

set_option exponentiation.threshold 1024 in
/-- Settles O16: the quotient is no larger than the register's value, so it fits. -/
theorem shrShiftsRightOrFaults : Obligations.ShrShiftsRightOrFaults := by
  intro rd ra amt s
  constructor
  · simp only [encode_toNat, instrFields]
    omega
  · have fits : (s.reg ra).toNat / 2 ^ amt.toNat < 2 ^ 1024 := (Nat.div_le_self _ _).trans_lt (s.reg ra).isLt
    rw [← Nat.mod_eq_of_lt fits]
    exact complete_shift rfl

/-! CTZ (R132) -/

/-- The count is the largest `t` with `2^t` dividing the value (R132). -/
theorem trailingZeros_largest {fuel v : Nat} (nonzero : v ≠ 0) (fits : v < 2 ^ fuel) :
    2 ^ trailingZeros fuel v ∣ v ∧ ¬ 2 ^ (trailingZeros fuel v + 1) ∣ v := by
  obtain ⟨⟨d, value⟩, -⟩ := trailingZeros_spec fuel v nonzero fits
  generalize trailingZeros fuel v = t at value
  rw [value, Nat.pow_succ, Nat.mul_dvd_mul_iff_left (Nat.two_pow_pos t)]
  exact ⟨Nat.dvd_mul_right _ _, by omega⟩

set_option exponentiation.threshold 1024 in
/-- The count fits `TZC` (R29, R132). -/
theorem trailingZeros_word_toNat {v : Wide} (nonzero : v.toNat ≠ 0) :
    (BitVec.ofNat 32 (trailingZeros 1024 v.toNat)).toNat = trailingZeros 1024 v.toNat := by
  obtain ⟨-, below⟩ := trailingZeros_spec 1024 v.toNat nonzero v.isLt
  rw [BitVec.toNat_ofNat]
  omega

theorem execCtz_counts {ra : Reg} {s : State} (nonzero : (s.reg ra).toNat ≠ 0) : execCtz ra s = .next { s with
    block := { s.block with tzc := BitVec.ofNat 32 (trailingZeros 1024 (s.reg ra).toNat) } } := by
  rw [execCtz, if_neg nonzero, complete_ok]

theorem execCtz_zero {ra : Reg} {s : State} (zero : (s.reg ra).toNat = 0) :
    execCtz ra s = .next (raise .ctzZero (encode (.ctz ra)) s) := by
  rw [execCtz, if_pos zero, complete_error]

set_option exponentiation.threshold 1024 in
/-- Settles O17: `TZC` holds the count that the scan finds. -/
theorem ctzCountsTrailingZerosOrFaults : Obligations.CtzCountsTrailingZerosOrFaults := by
  intro ra s
  refine ⟨?_, fun nonzero => ?_, fun zero => ?_⟩
  · simp only [encode_toNat, instrFields]
    omega
  · refine ⟨_, execCtz_counts nonzero, ?_⟩
    have bound := trailingZeros_word_le nonzero
    obtain ⟨divides, largest⟩ := trailingZeros_largest nonzero (s.reg ra).isLt
    rw [← trailingZeros_word_toNat nonzero] at divides largest
    exact ⟨divides, largest, bound, onlyTzc_update s _⟩
  · exact ⟨_, execCtz_zero zero, tookFault_raise _ _ s⟩

end Sys2Proof.Machine
end

section
/-! PROOFS. The modulus context (spec/43_modulus_context.md): the doubling construction of R141 builds the table of R140,
and the two ways SETMOD ends. -/

namespace Sys2Proof.Machine

/-! The doubling construction (R141) -/

set_option exponentiation.threshold 1024 in
/-- What the shifter drops of the doubled running value is outside every later entry (R141). -/
theorem ofNat_double_mod_mul (r m : Nat) :
    BitVec.ofNat 1024 (r * 2 % 2 ^ 1024 * m) = BitVec.ofNat 1024 (r * (2 * m)) := by
  apply BitVec.eq_of_toNat_eq
  rw [BitVec.toNat_ofNat, BitVec.toNat_ofNat, Nat.mod_mul_mod, Nat.mul_assoc]

/-- With `k` entries still to be written from the running value `r`, entry `i` comes to hold `r` doubled `k - 1 - i`
times, in front of the entries already written (R141). -/
theorem fillTable_eq (k r : Nat) (filled : List Wide) :
    fillTable k r filled = ((List.range k).map fun i => BitVec.ofNat 1024 (r * 2 ^ (k - 1 - i))) ++ filled := by
  induction k generalizing r filled with
  | zero => rfl
  | succ k ih =>
    have lower : (List.range k).map (fun i => BitVec.ofNat 1024 (r * 2 % 2 ^ 1024 * 2 ^ (k - 1 - i))) =
        (List.range k).map fun i => BitVec.ofNat 1024 (r * 2 ^ (k - i)) := by
      refine List.map_congr_left fun i mem => ?_
      have oneMore : k - i = k - 1 - i + 1 := by have := List.mem_range.mp mem; omega
      rw [ofNat_double_mod_mul, oneMore, Nat.pow_succ']
    rw [fillTable, ih, lower, List.range_succ, List.map_append, List.append_assoc]
    simp

/-- Settles O25: the 513 doublings from `N` are the 513 entries of R140. An entry holds its value modulo `2^1024`, so
the equation needs no bound on `N`. -/
theorem doublingBuildsTheTable : Obligations.DoublingBuildsTheTable := by
  intro n _ _
  rw [fillTable_eq, List.append_nil]
  rfl

/-! SETMOD (R140) -/

section setmod
variable {ra : Reg} {s : State}

/-- In range, the context becomes the modulus and its table, and nothing else changes (R140). -/
theorem execSetmod_builds (pos : 1 ≤ (s.reg ra).toNat) (fits : (s.reg ra).toNat < 2 ^ 512) :
    ∃ t, execSetmod ra s = .next t ∧ t.block.mv = true ∧ t.block.modn = BitVec.ofNat 512 (s.reg ra).toNat ∧
      t.block.mt = shiftedTable (s.reg ra).toNat ∧ OnlyContext s t := by
  have inRange : ¬ ((s.reg ra).toNat = 0 ∨ 2 ^ 512 ≤ (s.reg ra).toNat) :=
    not_or.mpr ⟨Nat.one_le_iff_ne_zero.mp pos, Nat.not_le.mpr fits⟩
  rw [execSetmod, if_neg inRange, complete_ok]
  exact ⟨_, rfl, rfl, rfl, by dsimp only, onlyContext_update s _ _⟩

theorem execSetmod_modulusRange (outOfRange : (s.reg ra).toNat = 0 ∨ 2 ^ 512 ≤ (s.reg ra).toNat) :
    execSetmod ra s = .next (raise .modulusRange (encode (.setmod ra)) s) := by
  rw [execSetmod, if_pos outOfRange, complete_error]

end setmod

set_option exponentiation.threshold 1024 in
/-- Settles O18: a modulus in range fits `MODN` and all its shifts fit the table's entries. -/
theorem setmodBuildsTheContextOrFaults : Obligations.SetmodBuildsTheContextOrFaults := by
  intro ra s
  refine ⟨?_, fun pos fits => ?_, fun outOfRange => ?_⟩
  · simp only [encode_toNat, instrFields]
    omega
  · obtain ⟨t, next, valid, modulus, table, frame⟩ := execSetmod_builds pos fits
    refine ⟨t, next, valid, ?_, ?_, fun i inTable => ⟨tableEntry (s.reg ra).toNat i, ?_, tableEntry_toNat fits⟩, frame⟩
    · rw [modulus, BitVec.toNat_ofNat, Nat.mod_eq_of_lt fits]
    · rw [table, shiftedTable_length]
    · rw [table, shiftedTable_getElem? inTable]
  · exact ⟨_, execSetmod_modulusRange outOfRange, tookFault_raise .modulusRange _ s⟩

end Sys2Proof.Machine
end

section
/-! PROOFS. The modular engine (spec/44_modular_engine.md): the reduction loop and its closed form, the schoolbook
product, the loop of POWMOD, and the ways REDUCE, MULMOD and POWMOD end. -/

namespace Sys2Proof.Machine

/-! The reduction loop (R150, R151) -/

/-- The last `k` steps of the reduction subtract the modulus as often as it goes, up to `2^k - 1` times: the first of
them takes out `2^(k-1)` multiples or finds fewer than that. -/
theorem reduceBy_lastEntries {n : Nat} (pos : 1 ≤ n) (fits : n < 2 ^ 512) {i k : Nat} (last : i + k = 513) (v : Nat) :
    reduceBy ((List.range' i k).map (tableEntry n)) v = v - n * min (v / n) (2 ^ k - 1) := by
  induction k generalizing i v with
  | zero => simp [reduceBy]
  | succ k ih =>
    have entry : (tableEntry n i).toNat = n * 2 ^ k := by rw [tableEntry_toNat fits, show 512 - i = k by omega]
    rw [List.range'_succ, List.map_cons, reduceBy_cons, entry, Nat.pow_succ]
    split
    case isTrue subtracts =>
      have enough : 2 ^ k ≤ v / n := (Nat.le_div_iff_mul_le pos).mpr (Nat.mul_comm n _ ▸ subtracts)
      have multiples : 2 ^ k + min (v / n - 2 ^ k) (2 ^ k - 1) = min (v / n) (2 ^ k * 2 - 1) := by omega
      rw [ih (by omega), Nat.sub_mul_div_of_le _ _ _ subtracts, Nat.sub_sub, ← Nat.mul_add, multiples]
    case isFalse keeps =>
      have few : v / n < 2 ^ k := Nat.div_lt_of_lt_mul (Nat.lt_of_not_le keeps)
      rw [ih (by omega), show min (v / n) (2 ^ k - 1) = min (v / n) (2 ^ k * 2 - 1) by omega]

/-- The closed form of R151. -/
theorem reduceBy_shiftedTable {n : Nat} (pos : 1 ≤ n) (fits : n < 2 ^ 512) (v : Nat) :
    reduceBy (shiftedTable n) v = v - n * min (v / n) (2 ^ 513 - 1) := by
  rw [shiftedTable, List.range_eq_range', reduceBy_lastEntries pos fits rfl]

/-- A value the steps can reduce is taken to its remainder (R151). -/
theorem sub_mul_min_eq_mod {n k v : Nat} (below : v < n * 2 ^ k) : v - n * min (v / n) (2 ^ k - 1) = v % n := by
  have few : v / n < 2 ^ k := Nat.div_lt_of_lt_mul below
  rw [Nat.min_eq_left (Nat.le_sub_one_of_lt few), Nat.mod_def]

/-- A value out of the steps' reach loses the modulus at each of them (R151). -/
theorem min_div_eq_of_le {n k v : Nat} (pos : 1 ≤ n) (beyond : n * 2 ^ k ≤ v) :
    min (v / n) (2 ^ k - 1) = 2 ^ k - 1 := by
  have many : 2 ^ k ≤ v / n := (Nat.le_div_iff_mul_le pos).mpr (Nat.mul_comm n _ ▸ beyond)
  exact Nat.min_eq_right ((Nat.sub_le _ 1).trans many)

/-- What is left of a value out of the steps' reach is not below the modulus (R151). -/
theorem le_sub_mul_of_le {n k v : Nat} (beyond : n * 2 ^ k ≤ v) : n ≤ v - n * (2 ^ k - 1) := by
  have split : n * 2 ^ k = n * (2 ^ k - 1) + n := by
    rw [← Nat.mul_succ, Nat.succ_eq_add_one, Nat.sub_add_cancel (Nat.two_pow_pos k)]
  omega

theorem reduceBy_shiftedTable_eq_mod {n : Nat} (pos : 1 ≤ n) (fits : n < 2 ^ 512) {v : Nat} (below : v < n * 2 ^ 513) :
    reduceBy (shiftedTable n) v = v % n := by
  rw [reduceBy_shiftedTable pos fits, sub_mul_min_eq_mod below]

/-- Settles O22. The closed form holds of every natural number, so the bound on `v` is not needed. -/
theorem reductionClosedForm : Obligations.ReductionClosedForm := by
  intro n v pos fits _
  have closed := reduceBy_shiftedTable pos fits v
  refine ⟨closed, fun below => ?_, fun beyond => ?_⟩
  · rw [reduceBy_shiftedTable_eq_mod pos fits below]
    exact ⟨rfl, Nat.mod_lt v pos⟩
  · rw [closed, min_div_eq_of_le pos beyond]
    exact ⟨rfl, le_sub_mul_of_le beyond⟩

/-! `mulmod` as a function (R156) -/

set_option exponentiation.threshold 1024 in
/-- With the context of R31 and both factors below the modulus, the product is within the reach of the steps (R155). -/
theorem mulmodBy_eq_mod {b : Block} (ready : ContextReady b) {x y : Nat} (hx : x < b.modn.toNat)
    (hy : y < b.modn.toNat) : mulmodBy b x y = .ok (x * y % b.modn.toNat) := by
  obtain ⟨-, pos, table⟩ := ready
  have fits := b.modn.isLt
  have below : x * y < b.modn.toNat * 2 ^ 513 := Nat.mul_lt_mul'' hx (by omega)
  rw [mulmodBy_ok hx hy, table, reduceBy_shiftedTable_eq_mod pos fits below]

/-- Settles O23. -/
theorem mulmodFunctionIsTheProductModN : Obligations.MulmodFunctionIsTheProductModN :=
  fun _ _ _ ready => ⟨mulmodBy_eq_mod ready, mulmodBy_error⟩

/-! The schoolbook product (R153, R154) -/

/-- `k` limbs, each below `2^32` (R7). -/
structure IsLimbs (k : Nat) (xs : List Nat) : Prop where
  length : xs.length = k
  bound : ∀ x ∈ xs, x < limbBase

theorem isLimbs_cons {k x : Nat} {xs : List Nat} : IsLimbs (k + 1) (x :: xs) ↔ x < limbBase ∧ IsLimbs k xs := by
  constructor
  · intro ⟨length, bound⟩
    obtain ⟨head, tail⟩ := List.forall_mem_cons.mp bound
    exact ⟨head, Nat.succ.inj length, tail⟩
  · intro ⟨head, length, tail⟩
    exact ⟨congrArg Nat.succ length, List.forall_mem_cons.mpr ⟨head, tail⟩⟩

/-- A nonempty list of limbs has a lowest limb. -/
theorem IsLimbs.exists_cons {k : Nat} {xs : List Nat} (limbs : IsLimbs (k + 1) xs) :
    ∃ x ys, xs = x :: ys ∧ x < limbBase ∧ IsLimbs k ys := by
  obtain ⟨x, ys, rfl⟩ := List.exists_cons_of_length_eq_add_one limbs.length
  exact ⟨x, ys, rfl, isLimbs_cons.mp limbs⟩

/-- The accumulator never overflows two limbs, so its carry is a limb: R154's bound on `t`. -/
theorem accumulator_div_lt {p a b carry : Nat} (hp : p < limbBase) (ha : a < limbBase) (hb : b < limbBase)
    (hcarry : carry < limbBase) : (p + a * b + carry) / limbBase < limbBase := by
  have product : a * b ≤ (limbBase - 1) * (limbBase - 1) :=
    Nat.mul_le_mul (Nat.le_sub_one_of_lt ha) (Nat.le_sub_one_of_lt hb)
  unfold limbBase at *
  omega

/-- A row adds `a` times the limbs of `b`, and the carry, to the limbs `qs` it meets; its last carry takes the place of
the 0 above them, and the limbs further up are as they were (R154). -/
theorem mulRow_adds {a carry k : Nat} {bs qs : List Nat} (ha : a < limbBase) (limbs : IsLimbs k bs)
    (met : IsLimbs k qs) (hcarry : carry < limbBase) (upper : List Nat) :
    ∃ rs, mulRow a bs (qs ++ 0 :: upper) carry = rs ++ upper ∧ IsLimbs (k + 1) rs ∧
      ofLimbsLs rs = ofLimbsLs qs + a * ofLimbsLs bs + carry := by
  induction k generalizing bs qs carry with
  | zero =>
    obtain rfl := List.length_eq_zero_iff.mp limbs.length
    obtain rfl := List.length_eq_zero_iff.mp met.length
    exact ⟨[carry], rfl, isLimbs_cons.mpr ⟨hcarry, met⟩, by simp [ofLimbsLs]⟩
  | succ k ih =>
    obtain ⟨b, bs, rfl, hb, limbs⟩ := limbs.exists_cons
    obtain ⟨q, qs, rfl, hq, met⟩ := met.exists_cons
    obtain ⟨rs, row, isLimbs, value⟩ := ih limbs met (accumulator_div_lt hq ha hb hcarry)
    refine ⟨(q + a * b + carry) % limbBase :: rs, ?_, ?_, ?_⟩
    · rw [List.cons_append, mulRow, row, List.cons_append]
    · exact isLimbs_cons.mpr ⟨Nat.mod_lt _ (by decide), isLimbs⟩
    · have parts := Nat.mod_add_div (q + a * b + carry) limbBase
      simp only [ofLimbsLs, value]
      linear_combination parts

/-- The rows add the product of the two numerals to the limbs `qs`, each row setting its lowest limb for good (R154). -/
theorem mulRows_adds {k n : Nat} {as bs qs : List Nat} (rows : IsLimbs n as) (limbs : IsLimbs k bs)
    (met : IsLimbs k qs) :
    IsLimbs (n + k) (mulRows as bs (qs ++ List.replicate n 0)) ∧
      ofLimbsLs (mulRows as bs (qs ++ List.replicate n 0)) = ofLimbsLs qs + ofLimbsLs as * ofLimbsLs bs := by
  induction n generalizing as qs with
  | zero =>
    obtain rfl := List.length_eq_zero_iff.mp rows.length
    simpa [mulRows, ofLimbsLs] using met
  | succ n ih =>
    obtain ⟨a, as, rfl, ha, rows⟩ := rows.exists_cons
    obtain ⟨rs, row, isLimbs, value⟩ := mulRow_adds ha limbs met (by decide : 0 < limbBase) (List.replicate n 0)
    obtain ⟨r, rs, rfl, hr, isLimbs⟩ := isLimbs.exists_cons
    obtain ⟨rest, restValue⟩ := ih rows isLimbs
    have unfolded : mulRows (a :: as) bs (qs ++ List.replicate (n + 1) 0) =
        r :: mulRows as bs (rs ++ List.replicate n 0) := by
      rw [List.replicate_succ, mulRows, row, List.cons_append]
    rw [unfolded, Nat.succ_add]
    refine ⟨isLimbs_cons.mpr ⟨hr, rest⟩, ?_⟩
    rw [ofLimbsLs] at value ⊢
    rw [restValue, ofLimbsLs]
    linear_combination value

theorem isLimbs_take_limbsLs (v : Wide) : IsLimbs 16 ((limbsLs v).take 16) where
  length := by rw [List.length_take, limbsLs_length]; rfl
  bound x mem := by
    have inLimbs := List.mem_of_mem_take mem
    rw [limbsLs_eq_reverse, List.mem_reverse] at inLimbs
    exact lt_limbBase_of_mem_limbsMs inLimbs

set_option exponentiation.threshold 1024 in
/-- An operand below `2^512` is in its 16 lowest limbs (R154). -/
theorem ofLimbsLs_take_limbsLs {v : Wide} (fits : v.toNat < 2 ^ 512) : ofLimbsLs ((limbsLs v).take 16) = v.toNat := by
  have capacity : limbBase ^ 16 = 2 ^ 512 := by rw [limbBase, ← Nat.pow_mul]
  rw [limbsLs_eq_digits, ← List.map_take, List.take_range, ofLimbsLs_eq_ofDigits, ofDigits_map_range]
  exact Nat.mod_eq_of_lt (capacity.symm ▸ fits)

/-- Settles O31: 16 rows on a product that is 0 at first. -/
theorem schoolbookIsTheExactProduct : Obligations.SchoolbookIsTheExactProduct := by
  intro a b fitsA fitsB
  have zeros : IsLimbs 16 (List.replicate 16 0) := ⟨List.length_replicate, by decide⟩
  obtain ⟨⟨length, bound⟩, value⟩ := mulRows_adds (isLimbs_take_limbsLs a) (isLimbs_take_limbsLs b) zeros
  rw [ofLimbsLs_take_limbsLs fitsA, ofLimbsLs_take_limbsLs fitsB, show ofLimbsLs (List.replicate 16 0) = 0 from rfl,
    Nat.zero_add] at value
  exact ⟨value, length, bound⟩

/-! The loop of POWMOD (R160, R161) -/

section powmodLoop
variable {b : Block} {base e : Nat}

/-- The loop ends when the exponent is used up, whatever fuel is left. -/
@[simp] theorem powmodLoop_exponent_zero (fuel pb pr : Nat) : powmodLoop b fuel pb 0 pr = .ok pr := by
  cases fuel with
  | zero => rfl
  | succ fuel => exact if_pos rfl

/-- One iteration: at a set bit the multiplication, then always the squaring, each of which may fault (R160). -/
theorem powmodLoop_iteration (more : e ≠ 0) (fuel pb pr : Nat) :
    powmodLoop b (fuel + 1) pb e pr =
      (if e % 2 = 1 then mulmodBy b pr pb else .ok pr).bind fun pr' =>
        (mulmodBy b pb pb).bind fun pb' => powmodLoop b fuel pb' (e / 2) pr' := by
  rw [powmodLoop, if_neg more]
  generalize (if e % 2 = 1 then mulmodBy b pr pb else .ok pr) = product
  cases product with
  | error c => rfl
  | ok pr' => cases mulmodBy b pb pb <;> rfl

/-- One iteration with both working copies reduced: it multiplies at a set bit and always squares. -/
theorem powmodLoop_iteration_reduced (ready : ContextReady b) {pb pr : Nat} (hpb : pb < b.modn.toNat)
    (hpr : pr < b.modn.toNat) (more : e ≠ 0) (fuel : Nat) :
    powmodLoop b (fuel + 1) pb e pr =
      powmodLoop b fuel (pb * pb % b.modn.toNat) (e / 2) (if e % 2 = 1 then pr * pb % b.modn.toNat else pr) := by
  rw [powmodLoop_iteration more, mulmodBy_eq_mod ready hpb hpb, mulmodBy_eq_mod ready hpr hpb]
  split <;> rfl

/-- A base that is not reduced faults in the first iteration, at the multiplication or else at the squaring (R161). -/
theorem powmodLoop_base_notReduced (notReduced : b.modn.toNat ≤ base) (more : e ≠ 0) (fuel pr : Nat) :
    powmodLoop b (fuel + 1) base e pr = .error .operandNotReduced := by
  rw [powmodLoop_iteration more, mulmodBy_error (.inl notReduced), mulmodBy_error (.inr notReduced)]
  split <;> rfl

/-- A result that is not reduced faults at the first set bit, if no squaring faults before it (R161, `N = 1`). -/
theorem powmodLoop_result_notReduced {pr : Nat} (notReduced : b.modn.toNat ≤ pr) {fuel : Nat} (more : e ≠ 0)
    (enough : e < 2 ^ fuel) : powmodLoop b fuel base e pr = .error .operandNotReduced := by
  induction fuel generalizing base e with
  | zero => omega
  | succ fuel ih =>
    rcases Nat.lt_or_ge base b.modn.toNat with reduced | baseNotReduced
    · rw [Nat.pow_succ] at enough
      rw [powmodLoop_iteration more, mulmodBy_error (.inl notReduced), mulmodBy_ok reduced reduced]
      split
      case isTrue => rfl
      case isFalse even => exact ih (by omega) (by omega)
    · exact powmodLoop_base_notReduced baseNotReduced more fuel pr

end powmodLoop

/-- The bit of the exponent that iteration `n` tests decides whether it multiplies `base^(2^n)` into the result. -/
theorem mul_pow_bit_mod (base e n m : Nat) :
    (if e / 2 ^ n % 2 = 1 then (base ^ (e % 2 ^ n) % m) * (base ^ 2 ^ n % m) % m else base ^ (e % 2 ^ n) % m) =
      base ^ (e % 2 ^ (n + 1)) % m := by
  rw [Nat.mod_pow_succ]
  split
  case isTrue bit => rw [bit, Nat.mul_one, Nat.pow_add, ← Nat.mul_mod]
  case isFalse noBit => rw [Nat.mod_two_ne_one.mp noBit, Nat.mul_zero, Nat.add_zero]

/-- Settles O24, by induction on the iterations. -/
theorem powmodIterationsSquareAndMultiply : Obligations.PowmodIterationsSquareAndMultiply := by
  intro b base e n fuel ready large reduced lasts
  have pos : 0 < b.modn.toNat := Nat.zero_lt_of_lt large
  induction n generalizing fuel with
  | zero => simp [Nat.mod_one, Nat.mod_eq_of_lt reduced, Nat.mod_eq_of_lt large]
  | succ n ih =>
    rw [Nat.pow_succ] at lasts
    have more : e / 2 ^ n ≠ 0 := (Nat.div_pos (by omega) (Nat.two_pow_pos n)).ne'
    rw [Nat.add_right_comm, Nat.add_assoc, ih (fuel + 1) (by omega),
      powmodLoop_iteration_reduced ready (Nat.mod_lt _ pos) (Nat.mod_lt _ pos) more, mul_pow_bit_mod,
      ← Nat.mul_mod, ← Nat.pow_add, Nat.div_div_eq_div_mul, ← Nat.two_mul, ← Nat.pow_succ', ← Nat.pow_succ]

/-- With fuel for every bit of the exponent the loop ends with the power (R161): the iterations are one more than the
position of the highest set bit. -/
theorem powmodLoop_eq_pow_mod {b : Block} (ready : ContextReady b) (large : 2 ≤ b.modn.toNat) {base : Nat}
    (reduced : base < b.modn.toNat) {e : Nat} (pos : 0 < e) {fuel : Nat} (enough : e < 2 ^ fuel) :
    powmodLoop b fuel base e 1 = .ok (base ^ e % b.modn.toNat) := by
  have highest : 2 ^ (Nat.log 2 e + 1) ≤ 2 * e := by
    rw [Nat.pow_succ']
    exact Nat.mul_le_mul_left 2 (Nat.pow_log_le_self 2 pos.ne')
  have used : e < 2 ^ (Nat.log 2 e + 1) := Nat.lt_pow_succ_log_self Nat.one_lt_two e
  obtain ⟨left, rfl⟩ := Nat.exists_eq_add_of_le (Nat.log_lt_of_lt_pow pos.ne' enough : Nat.log 2 e + 1 ≤ fuel)
  rw [powmodIterationsSquareAndMultiply b base e _ left ready large reduced highest, Nat.div_eq_of_lt used,
    Nat.mod_eq_of_lt used, powmodLoop_exponent_zero]

/-! REDUCE, MULMOD and POWMOD: `NoModulus`, or what is computed for `rd` (R152, R155, R160) -/

/-- What the three commands share: with no context `NoModulus`, else the number computed goes to `rd`. -/
def completeModular (cw : Word32) (rd : Reg) (s : State) (r : Except Cause Nat) : Host.Outcome State Fault Refusal :=
  complete cw s <|
    if s.block.mv = false then .error .noModulus else r.map fun v => s.setReg rd (BitVec.ofNat 1024 v)

theorem exec_reduce_eq (rd : Reg) (s : State) : exec (.reduce rd) s =
    completeModular (encode (.reduce rd)) rd s (.ok (reduceBy s.block.mt (s.reg rd).toNat)) := rfl

theorem exec_mulmod_eq (rd ra rb : Reg) (s : State) : exec (.mulmod rd ra rb) s =
    completeModular (encode (.mulmod rd ra rb)) rd s (mulmodBy s.block (s.reg ra).toNat (s.reg rb).toNat) := rfl

theorem exec_powmod_eq (rd ra rb : Reg) (s : State) : exec (.powmod rd ra rb) s =
    completeModular (encode (.powmod rd ra rb)) rd s
      (powmodLoop s.block 1024 (s.reg ra).toNat (s.reg rb).toNat 1) := rfl

section completeModular
variable {cw : Word32} {rd : Reg} {s : State} {r : Except Cause Nat}

set_option exponentiation.threshold 1024 in
theorem completeModular_ok (context : s.block.mv = true) {v : Nat} (ok : r = .ok v) (fits : v < 2 ^ 1024) :
    ∃ t, completeModular cw rd s r = .next t ∧ (t.reg rd).toNat = v ∧ OnlyReg rd s t := by
  rw [completeModular, context, if_neg Bool.true_eq_false.mp, ok, Except.map, complete_ok]
  refine ⟨_, rfl, ?_, onlyReg_setReg rd _ s⟩
  rw [reg_setReg_same, BitVec.toNat_ofNat, Nat.mod_eq_of_lt fits]

theorem completeModular_error (context : s.block.mv = true) {c : Cause} (fault : r = .error c) :
    ∃ t, completeModular cw rd s r = .next t ∧ TookFault c cw s t := by
  rw [completeModular, context, if_neg Bool.true_eq_false.mp, fault, Except.map, complete_error]
  exact ⟨_, rfl, tookFault_raise c cw s⟩

theorem completeModular_noModulus (noContext : s.block.mv = false) :
    ∃ t, completeModular cw rd s r = .next t ∧ TookFault .noModulus cw s t := by
  rw [completeModular, if_pos noContext, complete_error]
  exact ⟨_, rfl, tookFault_raise .noModulus cw s⟩

end completeModular

set_option exponentiation.threshold 1024 in
/-- A remainder by the modulus of the context fits a wide register (R7, R30). -/
theorem mod_modn_lt (b : Block) (x : Nat) (pos : 1 ≤ b.modn.toNat) : x % b.modn.toNat < 2 ^ 1024 :=
  calc x % b.modn.toNat < b.modn.toNat := Nat.mod_lt x pos
    _ < 2 ^ 512 := b.modn.isLt
    _ < 2 ^ 1024 := by decide

set_option exponentiation.threshold 1024 in
/-- Settles O19: the table's reduction fits because it is no larger than the value. -/
theorem reduceReducesByTheTableOrFaults : Obligations.ReduceReducesByTheTableOrFaults := by
  intro rd s
  rw [exec_reduce_eq]
  refine ⟨?_, fun context => ?_, completeModular_noModulus⟩
  · simp only [encode_toNat, instrFields]
    omega
  · obtain ⟨t, next, value, only⟩ := completeModular_ok (cw := encode (.reduce rd)) (rd := rd) context rfl
      ((reduceBy_le s.block.mt (s.reg rd).toNat).trans_lt (s.reg rd).isLt)
    refine ⟨t, next, value, only, fun ⟨_, pos, table⟩ => ?_⟩
    rw [value, table, reduceBy_shiftedTable pos s.block.modn.isLt]

/-- Settles O20. -/
theorem mulmodMultipliesModNOrFaults : Obligations.MulmodMultipliesModNOrFaults := by
  intro rd ra rb s
  rw [exec_mulmod_eq]
  refine ⟨?_, fun ready hx hy => ?_, fun context notReduced => ?_, completeModular_noModulus⟩
  · simp only [encode_toNat, instrFields]
    omega
  · have ⟨context, pos, _⟩ := ready
    exact completeModular_ok context (mulmodBy_eq_mod ready hx hy) (mod_modn_lt _ _ pos)
  · exact completeModular_error context (mulmodBy_error notReduced)

set_option exponentiation.threshold 1024 in
/-- Settles O21, by the cases of R161, each a lemma about the loop with fuel for all 1024 bits of the exponent. -/
theorem powmodExponentiatesModNOrFaults : Obligations.PowmodExponentiatesModNOrFaults := by
  intro rd ra rb s
  have enough := (s.reg rb).isLt
  rw [exec_powmod_eq]
  refine ⟨?_, fun context zero => ?_, fun context pos notReduced => ?_, fun ready pos _ one => ?_,
    fun ready pos reduced large => ?_, completeModular_noModulus⟩
  · simp only [encode_toNat, instrFields]
    omega
  · exact completeModular_ok context (zero ▸ powmodLoop_exponent_zero 1024 _ 1) (Nat.one_lt_two_pow (by decide))
  · exact completeModular_error context (powmodLoop_base_notReduced notReduced pos.ne' 1023 1)
  · have ⟨context, _, _⟩ := ready
    exact completeModular_error context (powmodLoop_result_notReduced one.le pos.ne' enough)
  · have ⟨context, modulusPos, _⟩ := ready
    exact completeModular_ok context (powmodLoop_eq_pow_mod ready large reduced pos enough) (mod_modn_lt _ _ modulusPos)

end Sys2Proof.Machine
end

section
/-! PROOFS. System commands (spec/45_system.md): what NOP and SRST do, and that no other word of their opcodes is legal. -/

namespace Sys2Proof

/-! The words of a command without operands (R82, R86) -/

/-- An opcode of a command without operands stands for that command, whatever the other fields hold (R83). -/
theorem commandOf_of_op_of_noOperands {f : Fields} {i : Instr} (noOperands : formatOf i = .Z)
    (op : f.op = (instrFields i).op) : commandOf f = some (.Z, i) := by
  obtain ⟨_, rd, ra, rb, z, imm⟩ := f
  subst op
  cases i with
  | nop | srst => rfl
  | _ => cases noOperands

/-- A command without operands has one legal word: every other word of its opcode is illegal (R86). -/
theorem decode_error_of_noOperands {w : Word32} {i : Instr} (noOperands : formatOf i = .Z)
    (op : (fieldsOf w).op = (instrFields i).op) (other : w ≠ encode i) : ∃ e, decode w = .error e := by
  cases decodes : decode w with
  | error e => exact ⟨e, rfl⟩
  | ok j =>
    obtain ⟨fields, -⟩ := decode_ok decodes
    have command := commandOf_of_op_of_noOperands noOperands op
    rw [fields, commandOf_instrFields] at command
    obtain ⟨-, rfl⟩ := Prod.mk.inj (Option.some.inj command)
    exact absurd (fieldsOf_injective (fields.trans (fieldsOf_encode j).symm)) other

/-- SRST's word is the one that R80 step 1 lets through (R171). -/
theorem encode_srst : encode .srst = srstWord := rfl

namespace Machine

/-! NOP (R170) -/

/-- NOP completes with nothing written (R170). -/
@[simp] theorem execNop_next (s : State) : execNop s = .next s := complete_ok (encode .nop) s s

/-- Settles O5: NOP's word is not SRST's, and NOP has no operands. -/
theorem nopChangesNothing : Obligations.NopChangesNothing := by
  refine ⟨fun s => ⟨encode_toNat .nop, execNop_next s⟩, fun s fault => ?_, fun w opcode other => ?_⟩
  · exact runCommand_discards fault (by decide)
  · exact decode_error_of_noOperands (i := .nop) rfl opcode other

/-! SRST (R171) -/

/-- SRST completes with the block reset (R171). -/
@[simp] theorem execSrst_next (s : State) : execSrst s = .next (resetBlock s) :=
  complete_ok (encode .srst) s (resetBlock s)

/-- A write of SRST's word to `CMD` runs SRST whether `ERR` is 1 or 0 (R80, R171). -/
theorem runCommand_srst (s : State) : runCommand (encode .srst) s = exec .srst s := by
  cases err : s.block.err with
  | false => exact runCommand_legal err (decodeOfEncodeIsTheCommand .srst rfl)
  | true => rw [encode_srst, runCommand_srst_of_fault err, exec_srst, execSrst_next]

/-- Settles O6: SRST has no operands, and the state it leaves is read off the reset block of R221. -/
theorem srstTakesTheResetState : Obligations.SrstTakesTheResetState := by
  refine ⟨runCommand_srst, fun w opcode other => ⟨?_, fun s fault => ?_⟩, fun s => ⟨encode_toNat .srst, ?_⟩⟩
  · exact decode_error_of_noOperands (i := .srst) rfl opcode other
  · exact runCommand_discards fault other
  · exact ⟨resetBlock s, execSrst_next s, resetBlock_reg s, read_nil, rfl, rfl, rfl, rfl, rfl, rfl, rfl, rfl, rfl,
      rfl, rfl, rfl⟩

end Machine

end Sys2Proof
end

section
/-! PROOFS. The host's procedures (spec/46_host_sequences.md): DECOMP ends with `N - 1 = m * 2^k` and `m` odd, and a
witness round of a prime passes. -/

namespace Sys2Proof.Machine

/-! Host actions, one after the other (R14, R95) -/

@[simp] theorem proceed_nil (s : State) : proceed [] s = .ok s := rfl

/-- An action that has a step leaves the rest to be performed from the state after it. -/
theorem proceed_cons {a : HostAction} {s t : State} (performs : performAction a s = .next t) (as : List HostAction) :
    proceed (a :: as) s = proceed as t := by
  rw [proceed, proceed, performAll, performs]

/-- An aligned 4-byte write below `0x14` is one to a control register (R51, R52). -/
theorem performAction_controlWrite {off : Nat} (aligned : off % 4 = 0) (inside : off < Config.controlEnd) (v : Word32)
    (s : State) : performAction (.write off 4 v) s = controlWrite off v s := by
  rw [performAction, hostWrite, classify_control_offset aligned inside]

/-- With `ERR = 0` the write of a well-formed command's word runs the command (R80, R95). -/
theorem performAction_cmd {i : Instr} {s : State} (noFault : s.block.err = false) (wf : i.wf = true) :
    performAction (cmd i) s = exec i s := by
  rw [cmd, commandWrite, performAction_controlWrite rfl (by decide), controlWrite, if_pos rfl]
  exact runCommand_legal noFault (decodeOfEncodeIsTheCommand i wf)

theorem proceed_cmd {i : Instr} {s t : State} (noFault : s.block.err = false) (wf : i.wf = true)
    (runs : exec i s = .next t) (as : List HostAction) : proceed (cmd i :: as) s = proceed as t :=
  proceed_cons ((performAction_cmd noFault wf).trans runs) as

theorem proceed_wrScl (v : Word32) (s : State) (as : List HostAction) :
    proceed (wrScl v :: as) s = proceed as { s with block := { s.block with scl := v } } := by
  refine proceed_cons ?_ as
  rw [wrScl, performAction_controlWrite rfl (by decide), controlWrite_scl]

theorem proceed_rdStatus (s : State) :
    proceed [rdStatus] s = .ok { s with readData := some (statusWord s.block).toNat } := rfl

theorem proceed_rdTzc (s : State) : proceed [rdTzc] s = .ok { s with readData := some s.block.tzc.toNat } := rfl

/-- The bit the host tests in the `STATUS` it has read is the flag `EQ` (R29). -/
theorem eqRead_statusWord (s : State) :
    eqRead { s with readData := some (statusWord s.block).toNat } = s.block.eq := by
  have bit : (statusWord s.block).toNat / 8 % 2 = s.block.eq.toNat := by
    have hErr := s.block.err.toNat_lt
    have hMv := s.block.mv.toNat_lt
    have hLt := s.block.lt.toNat_lt
    have hEq := s.block.eq.toNat_lt
    rw [statusWord_toNat]
    omega
  rw [eqRead, Option.getD_some, bit]
  cases s.block.eq <;> rfl

/-! What a fault-free part of a procedure keeps -/

/-- The block is not in the fault state, and every wide register but those in `except` and the modulus context are as
they were. -/
structure Advances (except : Reg → Prop) (s t : State) : Prop where
  noFault : t.block.err = false
  regs : SameRegs except s t
  context : SameContext s t

namespace Advances
variable {except : Reg → Prop} {s t u : State}

theorem trans (first : Advances except s t) (second : Advances except t u) : Advances except s u where
  noFault := second.noFault
  regs r kept := (second.regs r kept).trans (first.regs r kept)
  context := by
    obtain ⟨mv, modn, mt⟩ := first.context
    obtain ⟨mv', modn', mt'⟩ := second.context
    exact ⟨mv'.trans mv, modn'.trans modn, mt'.trans mt⟩

theorem weaken (keepsAll : Advances (fun _ => False) s t) : Advances except s t where
  noFault := keepsAll.noFault
  regs r _ := keepsAll.regs r not_false
  context := keepsAll.context

theorem of_block_eq (noFault : s.block.err = false) (sameBlock : t.block = s.block) : Advances except s t where
  noFault := sameBlock ▸ noFault
  regs r _ := by rw [State.reg, State.reg, sameBlock]
  context := by
    rw [SameContext, sameBlock]
    exact ⟨rfl, rfl, rfl⟩

theorem of_scl (noFault : s.block.err = false) (v : Word32) :
    Advances except s { s with block := { s.block with scl := v } } :=
  ⟨noFault, fun _ _ => rfl, rfl, rfl, rfl⟩

theorem of_onlyReg {rd : Reg} (noFault : s.block.err = false) (only : OnlyReg rd s t) : Advances (· = rd) s t := by
  obtain ⟨regs, -, -, -, -, context, ⟨err, -, -⟩, -⟩ := only
  exact ⟨err.trans noFault, regs, context⟩

theorem of_onlyFlags (noFault : s.block.err = false) (only : OnlyFlags s t) : Advances except s t := by
  obtain ⟨regs, -, -, -, context, ⟨err, -, -⟩, -⟩ := only
  exact weaken ⟨err.trans noFault, regs, context⟩

theorem of_onlyTzc (noFault : s.block.err = false) (only : OnlyTzc s t) : Advances except s t := by
  obtain ⟨regs, -, -, -, context, ⟨err, -, -⟩, -⟩ := only
  exact weaken ⟨err.trans noFault, regs, context⟩

end Advances

/-! DECOMP (R176) -/

/-- `ctz w2`, `rd TZC`: the host reads the number of factors 2 of `w2`, and no wide register changes. -/
theorem proceed_ctz_rdTzc {s : State} (noFault : s.block.err = false) (nonzero : (s.reg 2).toNat ≠ 0) :
    ∃ t, proceed [cmd (.ctz 2), rdTzc] s = .ok t ∧ Advances (fun _ => False) s t ∧
      2 ^ t.readData.getD 0 ∣ (s.reg 2).toNat ∧ ¬ 2 ^ (t.readData.getD 0 + 1) ∣ (s.reg 2).toNat := by
  obtain ⟨-, counts, -⟩ := ctzCountsTrailingZerosOrFaults 2 s
  obtain ⟨t, runs, divides, largest, -, only⟩ := counts nonzero
  have counted : Advances (fun _ => False) s t := .of_onlyTzc noFault only
  refine ⟨{ t with readData := some t.block.tzc.toNat }, ?_, counted.trans (.of_block_eq counted.noFault rfl),
    divides, largest⟩
  rw [proceed_cmd noFault rfl runs, proceed_rdTzc]

/-- The shift of a pass of DECOMP's loop, left out when its amount is 0. -/
def shiftOut (n : Nat) : List HostAction := if 0 < n then [cmd (.shr 2 2 (BitVec.ofNat 8 n))] else []

theorem proceed_shiftOut {s : State} (noFault : s.block.err = false) {n : Nat} (legal : n ≤ 31) :
    ∃ t, proceed (shiftOut n) s = .ok t ∧ Advances (· = 2) s t ∧ (t.reg 2).toNat = (s.reg 2).toNat / 2 ^ n := by
  rcases Nat.eq_zero_or_pos n with rfl | pos
  · exact ⟨s, rfl, .of_block_eq noFault rfl, by simp⟩
  · have amount : (BitVec.ofNat 8 n).toNat = n := by
      rw [BitVec.toNat_ofNat]
      omega
    obtain ⟨-, shifts, -⟩ := shrShiftsRightOrFaults 2 2 (BitVec.ofNat 8 n) s
    rw [amount] at shifts
    obtain ⟨t, runs, value, only⟩ := shifts (by omega)
    refine ⟨t, ?_, .of_onlyReg noFault only, value⟩
    rw [shiftOut, if_pos pos, proceed_cmd noFault rfl runs, proceed_nil]

/-- One pass of DECOMP's loop, its two groups of actions performed. -/
theorem decompLoop_pass {s s1 s2 : State} (fuel k : Nat) (counts : proceed [cmd (.ctz 2), rdTzc] s = .ok s1)
    (shifts : proceed (shiftOut (min (s1.readData.getD 0) 31)) s1 = .ok s2) :
    decompLoop (fuel + 1) k s =
      if s1.readData.getD 0 ≤ 31 then .ok (s2, k + min (s1.readData.getD 0) 31)
      else decompLoop fuel (k + min (s1.readData.getD 0) 31) s2 := by
  rw [shiftOut] at shifts
  simp only [decompLoop, counts, shifts, bind, Except.bind, pure, Except.pure]

/-- What is left of a number without all its factors 2 is odd. -/
theorem div_two_pow_odd {v t : Nat} (divides : 2 ^ t ∣ v) (largest : ¬ 2 ^ (t + 1) ∣ v) : v / 2 ^ t % 2 = 1 := by
  obtain ⟨d, rfl⟩ := divides
  rw [Nat.pow_succ, Nat.mul_dvd_mul_iff_left (Nat.two_pow_pos t)] at largest
  rw [Nat.mul_div_cancel_left d (Nat.two_pow_pos t)]
  omega

/-- DECOMP's loop ends with `w2` odd, having counted the factors 2 it took out: every pass but the last takes out 31. -/
theorem decompLoop_ends {fuel : Nat} (k : Nat) {s : State} (noFault : s.block.err = false)
    (nonzero : (s.reg 2).toNat ≠ 0) (below : (s.reg 2).toNat < 2 ^ (31 * fuel)) :
    ∃ t n, decompLoop fuel k s = .ok (t, k + n) ∧ Advances (· = 2) s t ∧ (t.reg 2).toNat % 2 = 1 ∧
      (s.reg 2).toNat = (t.reg 2).toNat * 2 ^ n := by
  induction fuel generalizing k s with
  | zero => omega
  | succ fuel ih =>
    obtain ⟨s1, counts, read, divides, largest⟩ := proceed_ctz_rdTzc noFault nonzero
    have sameValue : s1.reg 2 = s.reg 2 := read.regs 2 not_false
    obtain ⟨s2, shifts, shifted, value⟩ := proceed_shiftOut read.noFault (Nat.min_le_right (s1.readData.getD 0) 31)
    have kept : Advances (· = 2) s s2 := read.weaken.trans shifted
    rw [sameValue] at value
    rw [decompLoop_pass fuel k counts shifts]
    generalize s1.readData.getD 0 = t at divides largest value ⊢
    have factors : (s.reg 2).toNat = (s2.reg 2).toNat * 2 ^ min t 31 := by
      rw [value, Nat.div_mul_cancel ((Nat.pow_dvd_pow 2 (Nat.min_le_left t 31)).trans divides)]
    split
    case isTrue last =>
      rw [Nat.min_eq_left last] at value factors ⊢
      exact ⟨s2, t, rfl, kept, value ▸ div_two_pow_odd divides largest, factors⟩
    case isFalse more =>
      rw [Nat.min_eq_right (by omega)] at value factors ⊢
      have smaller : (s2.reg 2).toNat < 2 ^ (31 * fuel) := by
        rw [Nat.mul_succ, Nat.pow_add] at below
        rw [value]
        exact Nat.div_lt_of_lt_mul (by rwa [Nat.mul_comm])
      have nonzero2 : (s2.reg 2).toNat ≠ 0 := fun zero => nonzero (by rw [factors, zero, Nat.zero_mul])
      obtain ⟨u, n, ends, rest, odd, product⟩ := ih (k + 31) shifted.noFault nonzero2 smaller
      refine ⟨u, 31 + n, ?_, kept.trans rest, odd, ?_⟩
      · rw [ends, Nat.add_assoc]
      · rw [factors, product, Nat.mul_assoc, ← Nat.pow_add, Nat.add_comm n 31]

/-- The pseudo-instruction `subi` (R91): the exact difference in `rd`. -/
theorem proceed_subi {s : State} (noFault : s.block.err = false) (rd : Reg) {ra : Reg} {v : Word32}
    (fits : v.toNat ≤ (s.reg ra).toNat) :
    ∃ t, (∀ as, proceed (wrScl v :: cmd (.subs rd ra) :: as) s = proceed as t) ∧ Advances (· = rd) s t ∧
      (t.reg rd).toNat = (s.reg ra).toNat - v.toNat := by
  obtain ⟨-, subtracts, -⟩ := subsSubtractsTheScalarOrFaults rd ra { s with block := { s.block with scl := v } }
  obtain ⟨t, runs, difference, only⟩ := subtracts fits
  have stored : Advances (· = rd) s { s with block := { s.block with scl := v } } := .of_scl noFault v
  refine ⟨t, fun as => ?_, stored.trans (.of_onlyReg noFault only), difference⟩
  rw [proceed_wrScl, proceed_cmd stored.noFault rfl runs]

/-- The start of DECOMP from `w0 >= 1`: `w1` and `w2` both hold `N - 1`. -/
theorem proceed_formMinusOne {s : State} (noFault : s.block.err = false) (pos : 1 ≤ (s.reg 0).toNat) :
    ∃ t, proceed [wrScl 1, cmd (.subs 1 0), cmd (.mov 2 1)] s = .ok t ∧ t.block.err = false ∧ t.reg 0 = s.reg 0 ∧
      (t.reg 1).toNat = (s.reg 0).toNat - 1 ∧ t.reg 2 = t.reg 1 := by
  obtain ⟨t, subtracts, toT, difference⟩ := proceed_subi noFault 1 (v := 1) pos
  obtain ⟨-, u, copies, copy, only⟩ := movCopiesTheRegister 2 1 t
  have toU : Advances (· = 2) t u := .of_onlyReg toT.noFault only
  have minusOne : u.reg 1 = t.reg 1 := toU.regs 1 (by decide)
  refine ⟨u, ?_, toU.noFault, (toU.regs 0 (by decide)).trans (toT.regs 0 (by decide)), minusOne ▸ difference,
    copy.trans minusOne.symm⟩
  rw [subtracts, proceed_cmd toT.noFault rfl copies, proceed_nil]

theorem decomp_of_formMinusOne {s s1 : State}
    (forms : proceed [wrScl 1, cmd (.subs 1 0), cmd (.mov 2 1)] s = .ok s1) :
    decomp s = decompLoop decompPasses 0 s1 := by
  simp only [decomp, forms, bind, Except.bind]

set_option exponentiation.threshold 1054 in
/-- The passes DECOMP's loop is given suffice for every wide value (R176). -/
theorem toNat_lt_decompPasses (v : Wide) : v.toNat < 2 ^ (31 * decompPasses) :=
  v.isLt.trans (Nat.pow_lt_pow_right (by decide) (by decide))

/-- Settles O55: the loop starts with `N - 1`, not 0, in `w1` and `w2`, and leaves `w0` and `w1` alone. -/
theorem decompReconstructsNMinusOne : Obligations.DecompReconstructsNMinusOne := by
  intro s noFault large
  obtain ⟨s1, forms, noFault1, w0, w1, w2⟩ := proceed_formMinusOne noFault (by omega)
  have nonzero : (s1.reg 2).toNat ≠ 0 := by
    rw [w2, w1]
    omega
  obtain ⟨t, k, ends, kept, odd, product⟩ := decompLoop_ends 0 noFault1 nonzero (toNat_lt_decompPasses (s1.reg 2))
  have keptW1 : t.reg 1 = s1.reg 1 := kept.regs 1 (by decide)
  rw [Nat.zero_add] at ends
  have keptW0 : t.reg 0 = s1.reg 0 := kept.regs 0 (by decide)
  refine ⟨t, k, (decomp_of_formMinusOne forms).trans ends, kept.noFault, keptW0.trans w0, ?_, odd, ?_⟩
  · rw [keptW1, w1]
  · rw [keptW1, ← w2, product]

/-! Powers modulo a prime (R181, the document's property S1) -/

/-- Where 1 has no square roots but 1 and -1, a `2^k`-th root of 1 is 1, or one of its repeated squares is -1. -/
theorem eq_one_or_pow_eq_neg_one {R : Type} [Ring R] [NoZeroDivisors R] {x : R} {k : Nat} (root : x ^ 2 ^ k = 1) :
    x = 1 ∨ ∃ j < k, x ^ 2 ^ j = -1 := by
  induction k with
  | zero => exact .inl (by simpa using root)
  | succ k ih =>
    rw [Nat.pow_succ, pow_mul, sq_eq_one_iff] at root
    rcases root with one | minusOne
    · exact (ih one).imp_right fun ⟨j, before, reaches⟩ => ⟨j, by omega, reaches⟩
    · exact .inr ⟨k, k.lt_succ_self, minusOne⟩

/-- The strong test passes for a prime: with `p - 1 = m * 2^k`, a witness's power `a^m` is 1 modulo `p`, or one of its
first `k` repeated squares is `p - 1`. -/
theorem pow_mod_eq_one_or_sub_one {p a m k : Nat} (prime : p.Prime) (pos : 0 < a) (below : a < p)
    (decomposed : p - 1 = m * 2 ^ k) : a ^ m % p = 1 ∨ ∃ j < k, (a ^ m % p) ^ 2 ^ j % p = p - 1 := by
  have := Fact.mk prime
  have unit : (a : ZMod p) ≠ 0 := fun zero =>
    Nat.not_dvd_of_pos_of_lt pos below ((ZMod.natCast_eq_zero_iff a p).mp zero)
  have fermat : ((a : ZMod p) ^ m) ^ 2 ^ k = 1 := by
    rw [← pow_mul, ← decomposed, ZMod.pow_card_sub_one_eq_one unit]
  rcases eq_one_or_pow_eq_neg_one fermat with one | ⟨j, before, minusOne⟩
  · left
    rw [← Nat.mod_eq_of_lt prime.one_lt, ← ZMod.natCast_eq_natCast_iff']
    exact_mod_cast one
  · right
    refine ⟨j, before, ?_⟩
    rw [← Nat.pow_mod, ← Nat.mod_eq_of_lt (Nat.sub_lt prime.pos one_pos), ← ZMod.natCast_eq_natCast_iff',
      Nat.cast_pred prime.pos, ZMod.natCast_self, zero_sub]
    exact_mod_cast minusOne

/-! MRROUND (R180) -/

/-- What holds throughout a witness round: no fault, the context of `n`, `w1 = n - 1` and `w6 = 1`; and `w5 = y`. -/
structure RoundHolds (n y : Nat) (s : State) : Prop where
  noFault : s.block.err = false
  context : ContextReady s.block
  modulus : s.block.modn.toNat = n
  minusOne : (s.reg 1).toNat = n - 1
  one : (s.reg 6).toNat = 1
  power : (s.reg 5).toNat = y

/-- A part of the round that writes `w5` at most keeps the rest. -/
theorem RoundHolds.advance {n y y' : Nat} {s t : State} (round : RoundHolds n y s) (advances : Advances (· = 5) s t)
    (power : (t.reg 5).toNat = y') : RoundHolds n y' t := by
  obtain ⟨mv, modn, mt⟩ := advances.context
  exact {
    noFault := advances.noFault
    context := by
      rw [ContextReady, mv, modn, mt]
      exact round.context
    modulus := by rw [modn, round.modulus]
    minusOne := by rw [advances.regs 1 (by decide), round.minusOne]
    one := by rw [advances.regs 6 (by decide), round.one]
    power }

section compare
variable {n y : Nat} {s : State}

/-- `cmp w5, wr`, `rd STATUS`: the `EQ` the host reads says whether `w5` and `wr` are equal. -/
theorem RoundHolds.compare (round : RoundHolds n y s) (r : Reg) :
    ∃ t, proceed [cmd (.cmp 5 r), rdStatus] s = .ok t ∧ RoundHolds n y t ∧
      (eqRead t = true ↔ y = (s.reg r).toNat) := by
  obtain ⟨-, t, runs, -, equal, only⟩ := cmpWritesTheFlags 5 r s
  have compared : Advances (fun _ => False) s t := .of_onlyFlags round.noFault only
  have keepsPower : t.reg 5 = s.reg 5 := compared.regs 5 not_false
  refine ⟨{ t with readData := some (statusWord t.block).toNat }, ?_,
    round.advance (compared.weaken.trans (.of_block_eq compared.noFault rfl)) ?_, ?_⟩
  · rw [proceed_cmd round.noFault rfl runs, proceed_rdStatus]
  · exact keepsPower ▸ round.power
  · rw [eqRead_statusWord, equal, round.power]

theorem RoundHolds.compareMinusOne (round : RoundHolds n y s) :
    ∃ t, proceed [cmd (.cmp 5 1), rdStatus] s = .ok t ∧ RoundHolds n y t ∧ (eqRead t = true ↔ y = n - 1) := by
  simpa only [round.minusOne] using round.compare 1

theorem RoundHolds.compareOne (round : RoundHolds n y s) :
    ∃ t, proceed [cmd (.cmp 5 6), rdStatus] s = .ok t ∧ RoundHolds n y t ∧ (eqRead t = true ↔ y = 1) := by
  simpa only [round.one] using round.compare 6

end compare

section squareLoop
variable {s s1 s2 : State} {fuel : Nat} (squares : proceed [cmd (.mulmod 5 5 5), cmd (.cmp 5 1), rdStatus] s = .ok s1)
include squares

theorem squareLoop_accept (minusOne : eqRead s1 = true) : squareLoop (fuel + 1) s = .ok (s1, .earlyAccept) := by
  simp only [squareLoop, squares, minusOne, bind, Except.bind, pure, Except.pure, if_true]

theorem squareLoop_continue (notMinusOne : ¬ eqRead s1 = true)
    (compares : proceed [cmd (.cmp 5 6), rdStatus] s1 = .ok s2) (notOne : ¬ eqRead s2 = true) :
    squareLoop (fuel + 1) s = squareLoop fuel s2 := by
  simp only [squareLoop, squares, compares, bind, Except.bind, if_neg notMinusOne, if_neg notOne]

end squareLoop

/-- The loop of MRROUND passes when one of its squares is `n - 1`: before that one no square is 1, since every square
of 1 is 1. -/
theorem squareLoop_accepts {n fuel j y : Nat} {s : State} (round : RoundHolds n y s) (large : 3 ≤ n) (reduced : y < n)
    (enough : j < fuel) (reaches : y ^ 2 ^ (j + 1) % n = n - 1) :
    ∃ t, squareLoop fuel s = .ok (t, .earlyAccept) ∧ t.block.err = false := by
  induction fuel generalizing j y s with
  | zero => omega
  | succ fuel ih =>
    obtain ⟨-, multiplies, -⟩ := mulmodMultipliesModNOrFaults 5 5 5 s
    rw [round.power, round.modulus] at multiplies
    obtain ⟨t, runs, square, only⟩ := multiplies round.context reduced reduced
    have squared := round.advance (.of_onlyReg round.noFault only) square
    obtain ⟨s1, compares, round1, minusOne⟩ := squared.compareMinusOne
    have squares : proceed [cmd (.mulmod 5 5 5), cmd (.cmp 5 1), rdStatus] s = .ok s1 := by
      rw [proceed_cmd round.noFault rfl runs, compares]
    by_cases accepts : eqRead s1 = true
    · exact ⟨s1, squareLoop_accept squares accepts, round1.noFault⟩
    · have later : (y * y % n) ^ 2 ^ j % n = n - 1 := by
        rw [← Nat.pow_mod, ← sq, ← pow_mul, ← Nat.pow_succ', reaches]
      cases j with
      | zero => exact absurd (minusOne.mpr (by simpa using later)) accepts
      | succ j =>
        obtain ⟨s2, comparesOne, round2, one⟩ := round1.compareOne
        have notOne : ¬ eqRead s2 = true := fun equal => by
          rw [one.mp equal, Nat.one_pow, Nat.mod_eq_of_lt (by omega)] at later
          omega
        rw [squareLoop_continue squares accepts comparesOne notOne]
        exact ih round2 (Nat.mod_lt _ (by omega)) (by omega) later

section mrRound
variable {s s1 s2 : State} {k : Nat} (powers : proceed [cmd (.powmod 5 4 2), cmd (.cmp 5 6), rdStatus] s = .ok s1)
include powers

theorem mrRound_accept_one (one : eqRead s1 = true) : mrRound k s = .ok (s1, .earlyAccept) := by
  simp only [mrRound, powers, one, bind, Except.bind, pure, Except.pure, if_true]

theorem mrRound_accept_minusOne (notOne : ¬ eqRead s1 = true)
    (compares : proceed [cmd (.cmp 5 1), rdStatus] s1 = .ok s2) (minusOne : eqRead s2 = true) :
    mrRound k s = .ok (s2, .earlyAccept) := by
  simp only [mrRound, powers, compares, minusOne, bind, Except.bind, pure, Except.pure, if_neg notOne, if_true]

theorem mrRound_squares (notOne : ¬ eqRead s1 = true)
    (compares : proceed [cmd (.cmp 5 1), rdStatus] s1 = .ok s2) (notMinusOne : ¬ eqRead s2 = true) :
    mrRound k s = squareLoop (k - 1) s2 := by
  simp only [mrRound, powers, compares, bind, Except.bind, if_neg notOne, if_neg notMinusOne]

end mrRound

/-- A round passes when the power `y = a^m` of its witness is 1, or `n - 1` after fewer than `k` squarings. -/
theorem mrRound_accepts {n y y0 k : Nat} {s : State} (round : RoundHolds n y0 s) (large : 3 ≤ n) (reduced : y < n)
    (computes : ∃ t, exec (.powmod 5 4 2) s = .next t ∧ (t.reg 5).toNat = y ∧ OnlyReg 5 s t)
    (passes : y = 1 ∨ ∃ j < k, y ^ 2 ^ j % n = n - 1) :
    ∃ t, mrRound k s = .ok (t, .earlyAccept) ∧ t.block.err = false := by
  obtain ⟨t, runs, power, only⟩ := computes
  have powered := round.advance (.of_onlyReg round.noFault only) power
  obtain ⟨s1, comparesOne, round1, one⟩ := powered.compareOne
  have powers : proceed [cmd (.powmod 5 4 2), cmd (.cmp 5 6), rdStatus] s = .ok s1 := by
    rw [proceed_cmd round.noFault rfl runs, comparesOne]
  by_cases isOne : eqRead s1 = true
  · exact ⟨s1, mrRound_accept_one powers isOne, round1.noFault⟩
  · obtain ⟨s2, compares, round2, minusOne⟩ := round1.compareMinusOne
    by_cases isMinusOne : eqRead s2 = true
    · exact ⟨s2, mrRound_accept_minusOne powers isOne compares isMinusOne, round2.noFault⟩
    · obtain ⟨j, before, reaches⟩ := passes.resolve_left fun equal => isOne (one.mpr equal)
      cases j with
      | zero =>
        rw [pow_zero, pow_one, Nat.mod_eq_of_lt reduced] at reaches
        exact absurd (minusOne.mpr reaches) isMinusOne
      | succ j =>
        rw [mrRound_squares powers isOne compares isMinusOne]
        exact squareLoop_accepts round2 large reduced (by omega) reaches

/-- Settles O56: POWMOD leaves `a^m` modulo the prime in `w5`, and by Fermat's theorem that power passes. -/
theorem witnessRoundsOfPrimesPass : Obligations.WitnessRoundsOfPrimesPass := by
  intro s k noFault context prime large w1 decomposed _ w6 atLeastTwo witnessBound
  have round : RoundHolds s.block.modn.toNat (s.reg 5).toNat s := ⟨noFault, context, rfl, w1, w6, rfl⟩
  have exponentPos : 0 < (s.reg 2).toNat := Nat.pos_of_ne_zero fun zero => by
    rw [zero, Nat.zero_mul] at decomposed
    omega
  obtain ⟨-, -, -, -, exponentiates, -⟩ := powmodExponentiatesModNOrFaults 5 4 2 s
  exact mrRound_accepts round (by omega) (Nat.mod_lt _ prime.pos)
    (exponentiates context exponentPos (by omega) (by omega))
    (pow_mod_eq_one_or_sub_one prime (by omega) (by omega) (w1.symm.trans decomposed))

end Sys2Proof.Machine
end

section
/-! PROOFS. Exceptions (spec/60_exceptions.md): which causes each command raises, and what leaves the fault state. -/

namespace Sys2Proof.Machine

/-! The causes of each command (R191) -/

/-- Settles O41: SRST ends with `ERR = 0`, and any other command that ends with `ERR = 1` took one of its own faults,
whose code names no other cause. -/
theorem faultCausesOfEachCommand : Obligations.FaultCausesOfEachCommand := by
  intro i s t c noFault h fault code
  by_cases srst : i = .srst
  · subst srst
    cases h
    cases fault
  · rcases exec_tookFault_or_sameFaultRecord h srst with ⟨d, listed, -, took, -⟩ | ⟨same, -⟩
    · exact code_injective (code.symm.trans took) ▸ listed
    · rw [same, noFault] at fault
      cases fault

/-! The fault state and its exits (R197, R198) -/

/-- While `ERR = 1` a word written to `CMD` changes nothing, or is SRST's and resets the block (R197). -/
theorem runCommand_next_of_fault {cw : Word32} {s t : State} (fault : s.block.err = true)
    (h : runCommand cw s = .next t) : t = s ∨ (cw = srstWord ∧ t = resetBlock s) := by
  by_cases srst : cw = srstWord
  · rw [srst, runCommand_srst_of_fault fault] at h
    cases h
    exact .inr ⟨srst, rfl⟩
  · rw [runCommand_discards fault srst] at h
    cases h
    exact .inl rfl

/-- Settles O35, by the action the step performs: of the host's accesses only a write to `CMD` can reach the fault
record, and in the fault state that write is SRST's or does nothing. -/
theorem onlyResetLeavesTheFaultState : Obligations.OnlyResetLeavesTheFaultState := by
  intro s t fault h
  rcases step_next h with rfl | ⟨a, rest, pending, performs⟩
  · exact .inl ⟨rfl, rfl, rfl⟩
  · cases a with
    | reset =>
      cases performs
      exact .inr ⟨rfl, rest, .inl pending⟩
    | read offset size =>
      obtain ⟨sameBlock, -⟩ := hostRead_next performs
      left
      rw [SameFaultRecord, sameBlock]
      exact ⟨rfl, rfl, rfl⟩
    | write offset size value =>
      rcases hostWrite_next performs with ⟨rfl, rfl, runs⟩ | ⟨buf, scl, rfl⟩
      · rcases runCommand_next_of_fault (s := { s with pending := rest }) fault runs with rfl | ⟨rfl, rfl⟩
        · exact .inl ⟨rfl, rfl, rfl⟩
        · exact .inr ⟨rfl, rest, .inr pending⟩
      · exact .inl ⟨rfl, rfl, rfl⟩

end Sys2Proof.Machine
end

section
/-! PROOFS. Reset and hazards (spec/70_reset_and_hazards.md): hardware reset, the state it leaves, and that every
command terminates. -/

namespace Sys2Proof.Machine

/-! Reset (R220, R221) -/

/-- Settles O36: the reset action and SRST both reset the block and leave the host's side alone. -/
theorem hardwareResetIsSrst : Obligations.HardwareResetIsSrst := by
  intro s rest pending
  rw [step_of_pending pending, exec_srst, execSrst_next]
  exact ⟨_, rfl, rfl⟩

/-- `STATUS` reads 0 after reset: each of its bits is 0 (R29, R221). -/
theorem statusWord_reset : statusWord Block.reset = 0#32 :=
  BitVec.eq_of_toNat_eq (statusWord_toNat Block.reset)

/-- Settles O37: resetting the block at reset changes nothing, so its registers are those of `resetBlock`, and an empty
buffer reads 0 everywhere. -/
theorem resetStateOfTheBlock : Obligations.ResetStateOfTheBlock :=
  ⟨resetBlock_reg State.reset, read_nil, rfl, rfl, rfl, rfl, rfl, rfl, rfl, rfl, rfl, statusWord_reset⟩

/-- Settles O47. -/
theorem resetHasTheInvariant : Obligations.ResetHasTheInvariant := inv_reset

/-! Termination (R231) -/

/-- Every command ends as R80 says: with all its writes, or with fault entry under its own word. -/
theorem exec_eq_complete (i : Instr) (s : State) : ∃ r, exec i s = complete (encode i) s r := by
  cases i <;> simp only [exec, execNop, execSrst, execLdb, execLds, execMov, execStb, execCmp, execAdds, execSubs,
    execSub, execShl, execShr, execCtz, execSetmod, execReduce, execMulmod, execPowmod] <;> exact ⟨_, rfl⟩

/-- Settles O39: both ways a command can end answer a next state. -/
theorem everyCommandAnswers : Obligations.EveryCommandAnswers := by
  intro i s
  obtain ⟨r, ends⟩ := exec_eq_complete i s
  rw [ends]
  cases r with
  | ok t => exact ⟨t, complete_ok (encode i) s t⟩
  | error c => exact ⟨raise c (encode i) s, complete_error (encode i) s c⟩

end Sys2Proof.Machine
end
